-- ==== Sys2Proof/Word.lean ====
section
/-! DEFINITION. The machine's one datum, the byte (00_scope.md R5 and R8, 20_memory.md R32). -/

namespace Sys2Proof

/-- A byte: every register, memory cell, PC and FL value (R8). -/
abbrev Byte := BitVec 8

/-- The greatest address of Memory: 256 cells, addresses 0 to 255 (R5). -/
abbrev topAddress : Nat := 255

end Sys2Proof
end

