-- ==== Sys2Proof/Config.lean ====
section
/-! DEFINITION. What an implementation fixes (00_scope.md R6) and the names those parameters are
indexed by. Each parameter has the value the spec takes; `Config.opcodeMap` (OPCODE_MAP) stands in
Decode.lean and `Machine.FaultCause.code` (FAULT_CODE) in Machine/Ops.lean, beside what uses them.
UNKNOWN_OPCODE_POLICY has the value `fault` (R58, decision D2): the step raises the fault itself. -/

namespace Sys2Proof

/-- The 13 operations of the machine (R1): the index of OPCODE_MAP, and the decoder's operation
output (R161; Unknown is `none` of `lookupOpcode`). -/
inductive Mnemonic where
  | hlt | ldi | prn | add | mul | cmp | push | pop | call | ret | jmp | jeq | jne
  deriving DecidableEq, Repr

/-- The four instruction formats (30_encoding.md R50). -/
inductive Format where
  /-- opcode only -/
  | f0
  /-- opcode, register index -/
  | f1r
  /-- opcode, register index, register index -/
  | f2rr
  /-- opcode, register index, immediate -/
  | f2ri
  deriving DecidableEq, Repr

/-- RESET_REG: the value of every register after reset (R6, R24, decision D6). -/
def Config.resetReg : Byte := 0x00

/-- RESET_FL: the value of FL after reset (R6, R24, decision D7). -/
def Config.resetFL : Byte := 0x00

/-- LINE_END: what the sink writes after each value, one line feed (R6, R86, decision D11). -/
def Config.lineEnd : List Char := [Char.ofNat 0x0A]

end Sys2Proof
end

