-- ==== Sys2Proof/Syntax.lean ====
section
/-! DEFINITION. The instructions, one constructor per row of spec/opcode_table.json. An operand is
the byte that stands in memory (30_encoding.md R50, R53): a register operand of 8 to 255 is an
instruction too, and its execution raises `RegisterIndexOutOfRange` (R74). -/

namespace Sys2Proof

/-- An instruction with its operand bytes, in the order they stand in memory (20_memory.md R33). -/
inductive Instr where
  /-- HLT (R80) -/
  | hlt
  /-- LDI r,imm (R85) -/
  | ldi (r imm : Byte)
  /-- PRN r (R86) -/
  | prn (r : Byte)
  /-- ADD ra,rb (R92) -/
  | add (ra rb : Byte)
  /-- MUL ra,rb (R93) -/
  | mul (ra rb : Byte)
  /-- CMP ra,rb (R94) -/
  | cmp (ra rb : Byte)
  /-- PUSH r (R101) -/
  | push (r : Byte)
  /-- POP r (R102) -/
  | pop (r : Byte)
  /-- CALL r (R105) -/
  | call (r : Byte)
  /-- RET (R106) -/
  | ret
  /-- JMP r (R110) -/
  | jmp (r : Byte)
  /-- JEQ r (R112) -/
  | jeq (r : Byte)
  /-- JNE r (R113) -/
  | jne (r : Byte)
  deriving DecidableEq, Repr

end Sys2Proof
end

