-- ==== Sys2Proof/WellFormed.lean ====
section
/-! DEFINITION. Which instructions are well formed: every register operand byte is a register index
0 to 7 (30_encoding.md R53). The immediate of LDI is any byte (R54). -/

namespace Sys2Proof

/-- A register operand byte is legal when it is 0 to 7 (R53). -/
def regIndexLegal (b : Byte) : Bool := b.toNat ≤ 7

/-- Every register operand of the instruction is legal (R50, R53, R74). -/
def Instr.wellFormed : Instr → Bool
  | .hlt => true
  | .ldi r _ => regIndexLegal r
  | .prn r => regIndexLegal r
  | .add ra rb => regIndexLegal ra && regIndexLegal rb
  | .mul ra rb => regIndexLegal ra && regIndexLegal rb
  | .cmp ra rb => regIndexLegal ra && regIndexLegal rb
  | .push r => regIndexLegal r
  | .pop r => regIndexLegal r
  | .call r => regIndexLegal r
  | .ret => true
  | .jmp r => regIndexLegal r
  | .jeq r => regIndexLegal r
  | .jne r => regIndexLegal r

end Sys2Proof
end

