-- ==== Sys2Proof/Decode.lean ====
section
/-! DEFINITION. The opcode map, the decoder and the encoder (30_encoding.md). -/

namespace Sys2Proof

/-- OPCODE_MAP, the byte value of each opcode: the default map of R56 (log entry 1, UNVERIFIED: the
low five bits of each byte are attested by no source, decision D1). -/
def Config.opcodeMap : Mnemonic → Byte
  | .hlt => 0x01
  | .ldi => 0x82
  | .prn => 0x47
  | .add => 0xA0
  | .mul => 0xA2
  | .cmp => 0xA7
  | .push => 0x45
  | .pop => 0x46
  | .call => 0x50
  | .ret => 0x11
  | .jmp => 0x54
  | .jeq => 0x55
  | .jne => 0x56

/-- The 13 operations, in the order of the opcode table. -/
def Mnemonic.all : List Mnemonic :=
  [.hlt, .ldi, .prn, .add, .mul, .cmp, .push, .pop, .call, .ret, .jmp, .jeq, .jne]

/-- The decoder's operation output: the whole byte looked up in the map, `none` for an unknown
opcode (R57, R58, R161). -/
def lookupOpcode (op : Byte) : Option Mnemonic :=
  Mnemonic.all.find? fun m => Config.opcodeMap m == op

/-- The decoder's N output, bits 7:6 of the opcode byte: how many operand bytes follow (R51). -/
def operandCount (op : Byte) : Nat := (op.extractLsb' 6 2).toNat

/-- The decoder's A output, bit 5 of the opcode byte: the instruction goes to the ALU (R51). -/
def aluRouted (op : Byte) : Bool := op.getLsbD 5

/-- The length in bytes of an instruction with a known opcode (R52). -/
def instrLength (op : Byte) : Nat := 1 + operandCount op

/-- The format of each operation (R50). -/
def Mnemonic.format : Mnemonic → Format
  | .hlt => .f0
  | .ldi => .f2ri
  | .prn => .f1r
  | .add => .f2rr
  | .mul => .f2rr
  | .cmp => .f2rr
  | .push => .f1r
  | .pop => .f1r
  | .call => .f1r
  | .ret => .f0
  | .jmp => .f1r
  | .jeq => .f1r
  | .jne => .f1r

/-- The operand bytes each format declares (R50). -/
def Format.operandBytes : Format → Nat
  | .f0 => 0
  | .f1r => 1
  | .f2rr => 2
  | .f2ri => 2

/-- The instruction an operation and its operand bytes make; a byte the format does not have is
not looked at (R50). -/
def assemble (m : Mnemonic) (a b : Byte) : Instr :=
  match m with
  | .hlt => .hlt
  | .ldi => .ldi a b
  | .prn => .prn a
  | .add => .add a b
  | .mul => .mul a b
  | .cmp => .cmp a b
  | .push => .push a
  | .pop => .pop a
  | .call => .call a
  | .ret => .ret
  | .jmp => .jmp a
  | .jeq => .jeq a
  | .jne => .jne a

/-- Why bytes are no instruction. -/
inductive DecodeError where
  /-- There is no byte at all. -/
  | noOpcode
  /-- The opcode byte is none of the 13 (R58, R59). -/
  | unknownOpcode (op : Byte)
  /-- The bytes end before operand byte `k` (1 or 2), the first one missing (R73). -/
  | operandMissing (k : Nat)
  deriving DecidableEq, Repr

/-- Decoding from the opcode byte and the bytes after it: look the opcode up, then take as many
operand bytes as bits 7:6 declare (R52, R57, R72, R73). Answers the instruction and the bytes left
over. -/
def decodeAfter (op : Byte) (rest : List Byte) : Except DecodeError (Instr × List Byte) :=
  match lookupOpcode op with
  | none => .error (.unknownOpcode op)
  | some m =>
    match operandCount op, rest with
    | 0, rest => .ok (assemble m 0 0, rest)
    | 1, a :: rest => .ok (assemble m a 0, rest)
    | _, a :: b :: rest => .ok (assemble m a b, rest)
    | _, [] => .error (.operandMissing 1)
    | _, [_] => .error (.operandMissing 2)

/-- The decoder on any bytes. -/
def decode : List Byte → Except DecodeError (Instr × List Byte)
  | [] => .error .noOpcode
  | op :: rest => decodeAfter op rest

/-- The operation of an instruction. -/
def Instr.mnemonic : Instr → Mnemonic
  | .hlt => .hlt
  | .ldi _ _ => .ldi
  | .prn _ => .prn
  | .add _ _ => .add
  | .mul _ _ => .mul
  | .cmp _ _ => .cmp
  | .push _ => .push
  | .pop _ => .pop
  | .call _ => .call
  | .ret => .ret
  | .jmp _ => .jmp
  | .jeq _ => .jeq
  | .jne _ => .jne

/-- The operand bytes of an instruction, in memory order (20_memory.md R33). -/
def Instr.operands : Instr → List Byte
  | .hlt => []
  | .ldi r imm => [r, imm]
  | .prn r => [r]
  | .add ra rb => [ra, rb]
  | .mul ra rb => [ra, rb]
  | .cmp ra rb => [ra, rb]
  | .push r => [r]
  | .pop r => [r]
  | .call r => [r]
  | .ret => []
  | .jmp r => [r]
  | .jeq r => [r]
  | .jne r => [r]

/-- The bytes of an instruction: its opcode byte, then its operand bytes (R50, R56). -/
def encode (i : Instr) : List Byte := Config.opcodeMap i.mnemonic :: i.operands

/-- The length of an instruction in bytes (R50). -/
def Instr.length (i : Instr) : Nat := 1 + i.mnemonic.format.operandBytes

/-- Bits `8 * k` to `8 * k + 7` of the first `nbits` bits of `w`, as a byte; bits from `nbits` up
are 0. -/
def tableByte (nbits w k : Nat) : Byte := BitVec.ofNat 8 ((w % 2 ^ nbits) / 2 ^ (8 * k))

/-- The bytes of a word numbered as spec/opcode_table.json numbers it (bit 0 the least significant
bit of the first byte), up to the longest instruction, three bytes (R50). -/
def tableBytes (nbits w : Nat) : List Byte :=
  [tableByte nbits w 0, tableByte nbits w 1, tableByte nbits w 2]

/-- The instruction the decoder reads from such a word, `none` where it refuses. -/
def decodeTableWord (nbits w : Nat) : Option Instr :=
  match decode (tableBytes nbits w) with
  | .ok (i, _) => some i
  | .error _ => none

end Sys2Proof
end

