-- ==== Sys2Proof/Machine/State.lean ====
section
/-! DEFINITION. The architectural state (10_state.md), the state after reset, and the reasons a step
can stop. -/

namespace Sys2Proof.Machine

/-- The eight general registers (R10). R6 is the stack pointer (R11). -/
inductive Reg where
  | r0 | r1 | r2 | r3 | r4 | r5 | r6 | r7
  deriving DecidableEq, Repr

/-- The register file: 8 registers of 8 bits, none hardwired (R10). -/
structure RegFile where
  r0 : Byte
  r1 : Byte
  r2 : Byte
  r3 : Byte
  r4 : Byte
  r5 : Byte
  r6 : Byte
  r7 : Byte
  deriving DecidableEq, Repr

/-- The causes of a fault (60_exceptions.md R121). -/
inductive FaultCause where
  /-- The byte fetched at PC is not one of the 13 opcodes (R72). -/
  | unknownOpcode
  /-- The ALU was invoked with a selector outside ADD, MUL, CMP (R91): unreachable. -/
  | aluContractViolation
  /-- An operand address, a sequential next address or CALL's return address exceeds 255 (R73, R77,
  R105). -/
  | addressOutOfRange
  /-- A register operand byte is 8 to 255 (R74). -/
  | registerIndexOutOfRange
  deriving DecidableEq, Repr

/-- The fault record (R20). -/
structure FaultRecord where
  /-- Which fault. -/
  cause : FaultCause
  /-- The value of PC when the fault was raised. -/
  addr : Byte
  /-- The unknown opcode byte, the out-of-range address or the out-of-range register index. -/
  info : Nat
  deriving DecidableEq, Repr

/-- The run status (R19). The fault record has a meaning only while the status is Faulted (R20, R24),
so it is held there (log entry 4). -/
inductive Status where
  | ready
  | running
  | halted
  | faulted (record : FaultRecord)
  deriving DecidableEq, Repr

/-- Memory as (address, byte) pairs: addresses strictly rising, all below 256, no entry 0x00, which
is what an unlisted address reads as (R24, R30). `Memory.wf` in Machine/Ops.lean says so. -/
abbrev Memory := List Host.Cell

/-- The whole state of the machine (10_state.md R10 to R22). -/
structure State where
  /-- R0 to R7 (R10). -/
  regs : RegFile
  /-- The program counter (R13). -/
  pc : Byte
  /-- The flags: bit 0 Equal, bit 1 Greater, bit 2 Less (R15). -/
  fl : Byte
  /-- Memory, 256 cells (R17). -/
  mem : Memory
  /-- The run status, with the fault record while Faulted (R19, R20). -/
  status : Status
  /-- The output log, oldest byte first (R21). -/
  output : List Byte
  deriving DecidableEq, Repr

/-- Why the machine stops. -/
inductive Fault where
  /-- The engine is Faulted and executes nothing (R70, R125, R127); carries the fault record. Raised
  by `step` alone, at a state whose status is Faulted; the step that RAISES a fault of R121 answers a
  next state. Safe: the spec gives a Faulted engine no further step (log entry 3). -/
  | engineFaulted (record : FaultRecord)
  deriving DecidableEq, Repr

/-- Why an instruction has no meaning. -/
inductive Refusal where
  /-- The instruction has no meaning in the model yet. Raised by no arm of `exec`: every instruction
  has its meaning. Safe. -/
  | notModelled (mnemonic : String)
  deriving DecidableEq, Repr

/-- The machine right after reset (R24, R140). Registers and FL: decisions D6 and D7 (log entry 2). -/
def State.reset : State where
  regs :=
    { r0 := Config.resetReg, r1 := Config.resetReg, r2 := Config.resetReg, r3 := Config.resetReg,
      r4 := Config.resetReg, r5 := Config.resetReg, r6 := Config.resetReg, r7 := Config.resetReg }
  pc := 0x00
  fl := Config.resetFL
  mem := []
  status := .ready
  output := []

end Sys2Proof.Machine
end

