-- ==== Sys2Proof/Machine/Ops.lean ====
section
/-! DEFINITION. The named operations over registers and memory, and the taking of a fault. -/

namespace Sys2Proof.Machine

/-- What every meaning and every step answers. -/
abbrev Outcome := Host.Outcome State Fault Refusal

/-! ### Registers (R10) -/

/-- The byte in a register of the file. -/
def RegFile.get (f : RegFile) : Reg → Byte
  | .r0 => f.r0
  | .r1 => f.r1
  | .r2 => f.r2
  | .r3 => f.r3
  | .r4 => f.r4
  | .r5 => f.r5
  | .r6 => f.r6
  | .r7 => f.r7

/-- The file with one register written. -/
def RegFile.set (f : RegFile) (r : Reg) (v : Byte) : RegFile :=
  match r with
  | .r0 => { f with r0 := v }
  | .r1 => { f with r1 := v }
  | .r2 => { f with r2 := v }
  | .r3 => { f with r3 := v }
  | .r4 => { f with r4 := v }
  | .r5 => { f with r5 := v }
  | .r6 => { f with r6 := v }
  | .r7 => { f with r7 := v }

/-- `x[r]` (R8). -/
def State.reg (s : State) (r : Reg) : Byte := s.regs.get r

/-- `x[r] <- v` (R8). -/
def State.setReg (s : State) (r : Reg) (v : Byte) : State := { s with regs := s.regs.set r v }

/-- The stack pointer is R6 (R11). -/
abbrev Reg.sp : Reg := .r6

/-- `pc <- v` (R8). -/
def State.setPc (s : State) (v : Byte) : State := { s with pc := v }

/-- `FL <- v`, the whole byte (R16). -/
def State.setFl (s : State) (v : Byte) : State := { s with fl := v }

/-- `status <- v` (R8). -/
def State.setStatus (s : State) (v : Status) : State := { s with status := v }

/-- `Out(v)`: one transaction on the output port, appended to the output log (R8, R21, R164). -/
def State.out (s : State) (v : Byte) : State := { s with output := s.output ++ [v] }

/-! ### Memory (R30) -/

/-- The byte listed for an address; an unlisted address holds 0x00 (R24, R30). -/
def Memory.readNat : Memory → Nat → Byte
  | [], _ => 0x00
  | (k, v) :: rest, a => if k = a then v else Memory.readNat rest a

/-- The memory with no entry for an address. -/
def Memory.erase : Memory → Nat → Memory
  | [], _ => []
  | (k, v) :: rest, a =>
    if k = a then Memory.erase rest a else (k, v) :: Memory.erase rest a

/-- The memory with an entry put before the first greater address. -/
def Memory.insert : Memory → Nat → Byte → Memory
  | [], a, v => [(a, v)]
  | (k, w) :: rest, a, v =>
    if a < k then (a, v) :: (k, w) :: rest else (k, w) :: Memory.insert rest a v

/-- A byte stored at an address, in canonical form: storing 0x00 removes the entry. -/
def Memory.writeNat (m : Memory) (a : Nat) (v : Byte) : Memory :=
  if v = 0x00 then m.erase a else (m.erase a).insert a v

/-- `MemRead(addr, 1)` (R30). An address is a byte, so it is always in range (R31). -/
def Memory.read (m : Memory) (a : Byte) : Byte := m.readNat a.toNat

/-- `MemWrite(addr, 1, v)` (R30). -/
def Memory.write (m : Memory) (a v : Byte) : Memory := m.writeNat a.toNat v

/-- The entries' addresses rise strictly from `lo` on and stay below 256, and no entry is 0x00. -/
def Memory.wfFrom : Nat → Memory → Bool
  | _, [] => true
  | lo, (k, v) :: rest =>
    decide (lo ≤ k) && decide (k ≤ topAddress) && decide (v ≠ 0x00) && Memory.wfFrom (k + 1) rest

/-- Memory is in canonical form. -/
def Memory.wf (m : Memory) : Bool := Memory.wfFrom 0 m

/-- The bytes from an address up, at most `n` of them and none past the top of memory (R31). -/
def Memory.bytesFrom (m : Memory) : Nat → Nat → List Byte
  | _, 0 => []
  | a, n + 1 => if a ≤ topAddress then m.readNat a :: m.bytesFrom (a + 1) n else []

/-- Bytes stored from an address up; a byte that would lie past the top of memory is dropped. -/
def Memory.putBytes (m : Memory) : Nat → List Byte → Memory
  | _, [] => m
  | a, v :: rest =>
    if a ≤ topAddress then Memory.putBytes (m.writeNat a v) (a + 1) rest else m

/-- `M[a]` of the state. -/
def State.memRead (s : State) (a : Byte) : Byte := s.mem.read a

/-- `M[a] <- v` in the state. -/
def State.memWrite (s : State) (a v : Byte) : State := { s with mem := s.mem.write a v }

/-! ### Faults (60_exceptions.md)

There is no return from a fault: no instruction leaves Faulted, only reset does (R125, R133, R140;
`hostReset` in Machine/HostPort.lean). -/

/-- FAULT_CODE, the number of each cause (R6, R121, decision D12). -/
def FaultCause.code : FaultCause → Nat
  | .unknownOpcode => 1
  | .aluContractViolation => 2
  | .addressOutOfRange => 3
  | .registerIndexOutOfRange => 4

/-- A fault condition that a check found: the cause and the `info` of its record (R121). -/
structure Raise where
  cause : FaultCause
  info : Nat
  deriving DecidableEq, Repr

/-- A check of a step: passed with a value, or the fault to raise (R76: every check comes before
every write). -/
abbrev Check (α : Type) := Except Raise α

/-- `raise Cause(addr = pc, info = v)`: status Faulted with the record, nothing else changes (R8,
R123, R124). The ONE operation that takes a fault. -/
def State.raise (s : State) (f : Raise) : State :=
  s.setStatus (.faulted { cause := f.cause, addr := s.pc, info := f.info })

/-- The commit of a step (R76, R124): all the effects, or the fault raised in the state BEFORE the
step. -/
def State.commit (s : State) (c : Check State) : Outcome :=
  match c with
  | .ok t => .next t
  | .error f => .next (s.raise f)

end Sys2Proof.Machine
end

