-- ==== Sys2Proof/Machine/Flags.lean ====
section
/-! DEFINITION. FL and its one computation, the comparison (10_state.md R15, 42_alu.md R96). -/

namespace Sys2Proof.Machine

/-- FL with only E set (R96). -/
def flagsEqual : Byte := 0x01

/-- FL with only G set (R96). -/
def flagsGreater : Byte := 0x02

/-- FL with only L set (R96). -/
def flagsLess : Byte := 0x04

/-- The flags byte of a comparison, unsigned (R90, R94, R96). Bits 7:3 are 0 (R15, decision D10). -/
def compareFlags (va vb : Byte) : Byte :=
  if va = vb then flagsEqual else if va.toNat > vb.toNat then flagsGreater else flagsLess

/-- `FL.E`, bit 0 (R8, R15). -/
def State.flagE (s : State) : Bool := s.fl.getLsbD 0

/-- `FL.G`, bit 1 (R8, R15). -/
def State.flagG (s : State) : Bool := s.fl.getLsbD 1

/-- `FL.L`, bit 2 (R8, R15). -/
def State.flagL (s : State) : Bool := s.fl.getLsbD 2

end Sys2Proof.Machine
end

