-- ==== Sys2Proof/Machine/Operands.lean ====
section
/-! DEFINITION. Operand forms and the checks that go with them: operand addresses (R73), register
operands (R74), the sequential next address (R77), and the two addressing modes of the stack
(R104). -/

namespace Sys2Proof.Machine

/-- The register a register operand byte names, `none` for 8 to 255 (R53). -/
def Reg.ofIndex (b : Byte) : Option Reg :=
  match b.toNat with
  | 0 => some .r0
  | 1 => some .r1
  | 2 => some .r2
  | 3 => some .r3
  | 4 => some .r4
  | 5 => some .r5
  | 6 => some .r6
  | 7 => some .r7
  | _ => none

/-- The operand byte that names a register (R53). -/
def Reg.index : Reg → Byte
  | .r0 => 0
  | .r1 => 1
  | .r2 => 2
  | .r3 => 3
  | .r4 => 4
  | .r5 => 5
  | .r6 => 6
  | .r7 => 7

/-- The addresses of `n` operand bytes (0, 1 or 2) are in range, the first one out of range being
the one reported (R73). -/
def State.operandsInRange (s : State) (n : Nat) : Check Unit :=
  if 1 ≤ n ∧ s.pc.toNat + 1 > topAddress then
    .error { cause := .addressOutOfRange, info := s.pc.toNat + 1 }
  else if 2 ≤ n ∧ s.pc.toNat + 2 > topAddress then
    .error { cause := .addressOutOfRange, info := s.pc.toNat + 2 }
  else
    .ok ()

/-- A register operand: the register it names, or the fault (R53, R74). -/
def regOperand (b : Byte) : Check Reg :=
  match Reg.ofIndex b with
  | some r => .ok r
  | none => .error { cause := .registerIndexOutOfRange, info := b.toNat }

/-- `pc + len` on unbounded integers, checked: the sequential next address (R77), and with
`len = 2` CALL's return address (R105). -/
def State.nextAddress (s : State) (len : Nat) : Check Byte :=
  if s.pc.toNat + len > topAddress then
    .error { cause := .addressOutOfRange, info := s.pc.toNat + len }
  else
    .ok (BitVec.ofNat 8 (s.pc.toNat + len))

/-- The checks of a format F1R instruction before its own rule: one operand byte, a register. -/
def State.operandR (s : State) (a : Byte) : Check Reg := do
  s.operandsInRange 1
  regOperand a

/-- The checks of a format F2RR instruction: two operand bytes, byte 1 checked before byte 2. -/
def State.operandsRR (s : State) (a b : Byte) : Check (Reg × Reg) := do
  s.operandsInRange 2
  let ra ← regOperand a
  let rb ← regOperand b
  .ok (ra, rb)

/-- The checks of a format F2RI instruction: two operand bytes, byte 1 a register; the immediate is
not checked (R54, R74). -/
def State.operandsRI (s : State) (a : Byte) : Check Reg := do
  s.operandsInRange 2
  regOperand a

/-- Pre-decrement of the stack pointer, modulo 256 (R37, R100). -/
def State.predecSp (s : State) : State := s.setReg .sp (s.reg .sp - 1)

/-- Post-increment of the stack pointer, modulo 256 (R37, R100). -/
def State.postincSp (s : State) : State := s.setReg .sp (s.reg .sp + 1)

/-- The byte on top of the stack (R104). -/
def State.stackTop (s : State) : Byte := s.memRead (s.reg .sp)

/-- A byte stored at the stack pointer's address (R104). -/
def State.storeTop (s : State) (v : Byte) : State := s.memWrite (s.reg .sp) v

end Sys2Proof.Machine
end

