-- ==== Sys2Proof/Machine/Alu.lean ====
section
/-! DEFINITION. The Arithmetic/Comparison Unit and the engine's path through it (42_alu.md R90,
R91, R95; 40_engine_hlt.md R75). -/

namespace Sys2Proof.Machine

/-- What the ALU answers (R163). -/
inductive AluAnswer where
  /-- The arithmetic result of ADD or MUL. -/
  | result (v : Byte)
  /-- The flags byte of CMP. -/
  | flags (v : Byte)
  /-- The error indication for a selector outside ADD, MUL, CMP (R91). -/
  | unsupported
  deriving DecidableEq, Repr

/-- The ALU: a function of the selector and two values, with no state (R90). Results are computed on
unbounded integers and reduced modulo 256 (R95). -/
def alu (sel : Mnemonic) (va vb : Byte) : AluAnswer :=
  match sel with
  | .add => .result (BitVec.ofNat 8 ((va.toNat + vb.toNat) % 256))
  | .mul => .result (BitVec.ofNat 8 ((va.toNat * vb.toNat) % 256))
  | .cmp => .flags (compareFlags va vb)
  | .hlt => .unsupported
  | .ldi => .unsupported
  | .prn => .unsupported
  | .push => .unsupported
  | .pop => .unsupported
  | .call => .unsupported
  | .ret => .unsupported
  | .jmp => .unsupported
  | .jeq => .unsupported
  | .jne => .unsupported

/-- The engine writes the ALU's answer to x[ra] or to FL (R75); an unsupported selector is the fault
`AluContractViolation`, its `info` the opcode byte (R91, R121). -/
def State.aluWrite (s : State) (sel : Mnemonic) (ra : Reg) (answer : AluAnswer) : Check State :=
  match answer with
  | .result v => .ok (s.setReg ra v)
  | .flags v => .ok (s.setFl v)
  | .unsupported =>
    .error { cause := .aluContractViolation, info := (Config.opcodeMap sel).toNat }

/-- An ALU-routed instruction: both register operands, the checked advance `pc + 3`, the ALU on the
two register values, its answer written (R75, R77). -/
def State.aluPath (s : State) (sel : Mnemonic) (a b : Byte) : Check State := do
  let (ra, rb) ← s.operandsRR a b
  let next ← s.nextAddress 3
  let t ← s.aluWrite sel ra (alu sel (s.reg ra) (s.reg rb))
  .ok (t.setPc next)

end Sys2Proof.Machine
end

