-- ==== Sys2Proof/Machine/Arith.lean ====
section
/-! DEFINITION. ADD, MUL and CMP, the ALU-routed instructions (42_alu.md). -/

namespace Sys2Proof.Machine

/-- ADD ra, rb (R92). -/
def execAdd (a b : Byte) (s : State) : Outcome := s.commit (s.aluPath .add a b)

/-- MUL ra, rb (R93). -/
def execMul (a b : Byte) (s : State) : Outcome := s.commit (s.aluPath .mul a b)

/-- CMP ra, rb (R94). -/
def execCmp (a b : Byte) (s : State) : Outcome := s.commit (s.aluPath .cmp a b)

end Sys2Proof.Machine
end

