-- ==== Sys2Proof/Machine/Branch.lean ====
section
/-! DEFINITION. JMP, JEQ and JNE (45_branch.md). -/

namespace Sys2Proof.Machine

/-- JMP r (R110): absolute, no check of the target. -/
def execJmp (a : Byte) (s : State) : Outcome :=
  s.commit do
    let r ← s.operandR a
    .ok (s.setPc (s.reg r))

/-- The conditional branch (R111): to x[a] when taken, else the checked advance `pc + 2`. The
register index is checked in both cases (R74, decision D19). -/
def State.branch (s : State) (taken : Bool) (a : Byte) : Check State := do
  let r ← s.operandR a
  if taken then
    .ok (s.setPc (s.reg r))
  else do
    let next ← s.nextAddress 2
    .ok (s.setPc next)

/-- JEQ r (R112): taken when E is 1. -/
def execJeq (a : Byte) (s : State) : Outcome := s.commit (s.branch s.flagE a)

/-- JNE r (R113): taken when E is 0. -/
def execJne (a : Byte) (s : State) : Outcome := s.commit (s.branch (!s.flagE) a)

end Sys2Proof.Machine
end

