-- ==== Sys2Proof/Machine/CallReturn.lean ====
section
/-! DEFINITION. CALL and RET (44_call_return.md). -/

namespace Sys2Proof.Machine

/-- CALL r (R105): the return address `pc + 2` is checked and pushed, then the target x[a] is read,
after the decrement (decisions D5 and D9). -/
def execCall (a : Byte) (s : State) : Outcome :=
  s.commit do
    let r ← s.operandR a
    let ret ← s.nextAddress 2
    let t := s.predecSp
    .ok ((t.storeTop ret).setPc (t.reg r))

/-- RET (R106): the byte on top of the stack becomes PC. -/
def execRet (s : State) : Outcome := .next (s.postincSp.setPc s.stackTop)

end Sys2Proof.Machine
end

