-- ==== Sys2Proof/Machine/Halt.lean ====
section
/-! DEFINITION. HLT (40_engine_hlt.md R80). -/

namespace Sys2Proof.Machine

/-- HLT (R80): status Halted; PC keeps the address of the HLT byte (decision D8). -/
def execHlt (s : State) : Outcome := .next (s.setStatus .halted)

end Sys2Proof.Machine
end

