-- ==== Sys2Proof/Machine/LoadPrint.lean ====
section
/-! DEFINITION. LDI and PRN (41_load_print.md), and what the output sink shows. -/

namespace Sys2Proof.Machine

/-- LDI r, imm (R85): the immediate is taken as it is (R54). -/
def execLdi (a b : Byte) (s : State) : Outcome :=
  s.commit do
    let r ← s.operandsRI a
    let next ← s.nextAddress 3
    .ok ((s.setReg r b).setPc next)

/-- PRN r (R86): one byte to the output port. -/
def execPrn (a : Byte) (s : State) : Outcome :=
  s.commit do
    let r ← s.operandR a
    let next ← s.nextAddress 2
    .ok ((s.out (s.reg r)).setPc next)

/-- The character of a decimal digit. -/
def digitChar (d : Nat) : Char := Char.ofNat (48 + d)

/-- A byte in decimal: unsigned, no leading zeros, no sign (R86, decision D11). -/
def decimalText (v : Byte) : List Char :=
  if v.toNat < 10 then [digitChar v.toNat]
  else if v.toNat < 100 then [digitChar (v.toNat / 10), digitChar (v.toNat % 10)]
  else [digitChar (v.toNat / 100), digitChar (v.toNat / 10 % 10), digitChar (v.toNat % 10)]

/-- What the sink shows for an output log: each byte's decimal text and a line end, in order (R21,
R86, R164). -/
def sinkText (log : List Byte) : List Char :=
  log.flatMap fun v => decimalText v ++ Config.lineEnd

end Sys2Proof.Machine
end

