-- ==== Sys2Proof/Machine/Stack.lean ====
section
/-! DEFINITION. PUSH and POP (43_stack.md). -/

namespace Sys2Proof.Machine

/-- PUSH r (R101): x[6] and x[a] are read after the decrement (decision D9). -/
def execPush (a : Byte) (s : State) : Outcome :=
  s.commit do
    let r ← s.operandR a
    let next ← s.nextAddress 2
    let t := s.predecSp
    .ok ((t.storeTop (t.reg r)).setPc next)

/-- POP r (R102): x[6] is incremented after the write of x[a] (decision D9). -/
def execPop (a : Byte) (s : State) : Outcome :=
  s.commit do
    let r ← s.operandR a
    let next ← s.nextAddress 2
    .ok ((s.setReg r s.stackTop).postincSp.setPc next)

end Sys2Proof.Machine
end

