-- ==== Sys2Proof/Machine/Fetch.lean ====
section
/-! DEFINITION. Fetch and decode of the instruction at PC (40_engine_hlt.md R71, R72, R73), and the
placing of an instruction where the next step fetches. -/

namespace Sys2Proof.Machine

/-- The opcode byte at PC (R71): PC is a byte, so this never faults. -/
def State.fetchOpcode (s : State) : Byte := s.memRead s.pc

/-- The bytes after the opcode byte, at most two and none past the top of memory (R33, R73). Reading
has no effect (R30), so reading more of them than the opcode declares cannot be told apart. -/
def State.fetchOperands (s : State) : List Byte := s.mem.bytesFrom (s.pc.toNat + 1) 2

/-- The fault of a decoding that failed: an unknown opcode (R72), or the address of the first
operand byte that is out of range (R73). -/
def State.decodeFault (s : State) : DecodeError → Raise
  | .noOpcode => { cause := .addressOutOfRange, info := s.pc.toNat }
  | .unknownOpcode op => { cause := .unknownOpcode, info := op.toNat }
  | .operandMissing k => { cause := .addressOutOfRange, info := s.pc.toNat + k }

/-- The instruction at PC, or the fault of fetching it (R71 to R73). `noOpcode` cannot arise: there
is always an opcode byte. -/
def State.fetchInstr (s : State) : Check Instr :=
  match decodeAfter s.fetchOpcode s.fetchOperands with
  | .ok (i, _) => .ok i
  | .error e => .error (s.decodeFault e)

/-- The bytes of an instruction stored from PC up, and the engine Running (log entry 7). -/
def State.placeInstr (s : State) (bytes : List Byte) : State :=
  { s with mem := s.mem.putBytes s.pc.toNat bytes, status := .running }

end Sys2Proof.Machine
end

