-- ==== Sys2Proof/Machine/Step.lean ====
section
/-! DEFINITION. One step of the Execution Engine (40_engine_hlt.md R70, R78). -/

namespace Sys2Proof.Machine

/-- One step. While Running: fetch, decode, execute, or raise the fault of the fetch (R78). Ready and
Halted do nothing (R70). Faulted does nothing either and is reported as the machine's fault, which no
later step clears (R125, R127, log entry 3). -/
def step (s : State) : Host.Outcome State Fault Refusal :=
  match s.status with
  | .ready => .next s
  | .halted => .next s
  | .faulted record => .fault (.engineFaulted record)
  | .running =>
    match s.fetchInstr with
    | .ok i => exec i s
    | .error f => .next (s.raise f)

/-- The state with the instruction whose opcode-table word is `w` placed at PC and the engine
Running: what the host's `load` or `write` and `run` do (R142, log entry 7). -/
def State.withFetchWord (s : State) (nbits w : Nat) : State :=
  s.placeInstr (tableBytes nbits w)

end Sys2Proof.Machine
end

