-- ==== Sys2Proof/Machine/HostPort.lean ====
section
/-! DEFINITION. The host interface (80_interfaces.md R165 to R170) and the run (40_engine_hlt.md
R79, R81). The host is outside the machine: these are its moves between steps, not instructions. -/

namespace Sys2Proof.Machine

/-- Why a host operation is not carried out; it then changes nothing (R165 to R168). The names are the
model's (log entry 5). -/
inductive HostError where
  /-- The engine is Running: the host gets no turn (R165). -/
  | notPossible
  /-- The status does not allow the operation (R165). -/
  | refused
  /-- An address outside 0 to 255, or a program of more than 256 bytes (R166, R167, R168). -/
  | addressOutOfRange
  /-- A value outside 0 to 255 (R168). -/
  | valueOutOfRange
  deriving DecidableEq, Repr

/-- The operations allowed in Ready only: `load`, `write` and `run` (R165). -/
def State.hostMayChange (s : State) : Except HostError Unit :=
  match s.status with
  | .ready => .ok ()
  | .running => .error .notPossible
  | .halted => .error .refused
  | .faulted _ => .error .refused

/-- Reading is allowed whenever the engine is not Running (R165). -/
def State.hostMayRead (s : State) : Except HostError Unit :=
  match s.status with
  | .ready => .ok ()
  | .running => .error .notPossible
  | .halted => .ok ()
  | .faulted _ => .ok ()

/-- `reset`, in any status: every piece of state at its reset value, whatever it was (R140, R165,
R170). -/
def hostReset (_s : State) : State := State.reset

/-- `load(program)`: bytes from address 0 up; a program of more than 256 bytes is refused whole
(R166). -/
def hostLoad (program : List Byte) (s : State) : Except HostError State := do
  s.hostMayChange
  if program.length > topAddress + 1 then
    .error .addressOutOfRange
  else
    .ok { s with mem := s.mem.putBytes 0 program }

/-- `read(address)` (R167). -/
def hostRead (address : Nat) (s : State) : Except HostError Byte := do
  s.hostMayRead
  if address > topAddress then
    .error .addressOutOfRange
  else
    .ok (s.mem.readNat address)

/-- Observing registers, PC, FL, status, fault record and output log: the state itself, unchanged
(R165, R167). -/
def hostObserve (s : State) : Except HostError State := do
  s.hostMayRead
  .ok s

/-- `write(address, byte)` (R168). -/
def hostWrite (address value : Nat) (s : State) : Except HostError State := do
  s.hostMayChange
  if address > topAddress then
    .error .addressOutOfRange
  else if value > 255 then
    .error .valueOutOfRange
  else
    .ok { s with mem := s.mem.writeNat address (BitVec.ofNat 8 value) }

/-- `run()`: from Ready to Running; the engine then steps (R169). -/
def hostRun (s : State) : Except HostError State := do
  s.hostMayChange
  .ok (s.setStatus .running)

/-- At most `fuel` steps, stopping as soon as the engine is not Running (R79). Fuel is the executor's,
no part of the machine (R81). -/
def runFor : Nat → State → State
  | 0, s => s
  | fuel + 1, s =>
    match s.status with
    | .running =>
      match step s with
      | .next t => runFor fuel t
      | .fault _ => s
      | .refused _ => s
    | .ready => s
    | .halted => s
    | .faulted _ => s

end Sys2Proof.Machine
end

