-- ==== Sys2Proof/Safety.lean ====
section
/-! DEFINITION. What claims are stated in terms of: how a run ends (R79, R127), the invariant
(10_state.md R15, R20, R23, 60_exceptions.md R121, R124), reachability, and the register table of
R12. -/

namespace Sys2Proof.Machine

/-- The end of a run (R79): Halted, and nothing else. -/
def State.Finished (s : State) : Prop := s.status = .halted

/-- An aborted run (R79, R123): Faulted, with this record. -/
def State.AbortedWith (s : State) (r : FaultRecord) : Prop := s.status = .faulted r

/-- The state in which a fault was raised at `s`: status Faulted, the record with `addr` the value of
PC, everything else as in `s` (R123, R124). -/
def State.faultedWith (s : State) (cause : FaultCause) (info : Nat) : State :=
  { s with status := .faulted { cause := cause, addr := s.pc, info := info } }

/-- FL holds no flag or exactly one, and bits 7:3 are 0 (R15, R23; bits 7:3 by decision D10). -/
def FlagsLegal (fl : Byte) : Prop := fl = 0x00 ∨ fl = 0x01 ∨ fl = 0x02 ∨ fl = 0x04

/-- The record's `info` is what R121 says for its cause; the ALU contract violation has none, since
it cannot happen (R91). -/
def FaultRecord.Legal (r : FaultRecord) : Prop :=
  match r.cause with
  | .unknownOpcode => r.info ≤ 255 ∧ lookupOpcode (BitVec.ofNat 8 r.info) = none
  | .aluContractViolation => False
  | .addressOutOfRange => r.info = 256
  | .registerIndexOutOfRange => 8 ≤ r.info ∧ r.info ≤ 255

/-- While Faulted, the record is legal and names the address PC still holds (R121, R124). -/
def State.FaultLegal (s : State) : Prop :=
  ∀ r, s.status = .faulted r → r.Legal ∧ r.addr = s.pc

/-- The invariant: memory in its canonical form, FL legal, the fault record legal. -/
structure State.Inv (s : State) : Prop where
  mem : s.mem.wf = true
  fl : FlagsLegal s.fl
  fault : s.FaultLegal

/-- The states that reset, the host's operations and steps lead to, whatever the host loads and
writes (R165, R173). -/
inductive Reachable : State → Prop where
  | reset : Reachable State.reset
  | hostReset {s : State} : Reachable s → Reachable (hostReset s)
  | load {s t : State} {program : List Byte} :
      Reachable s → hostLoad program s = .ok t → Reachable t
  | write {s t : State} {address value : Nat} :
      Reachable s → hostWrite address value s = .ok t → Reachable t
  | run {s t : State} : Reachable s → hostRun s = .ok t → Reachable t
  | step {s t : State} : Reachable s → step s = .next t → Reachable t

/-- A register operand byte names this register. -/
def names (b : Byte) (q : Reg) : Bool := decide (Reg.ofIndex b = some q)

/-- The instruction reads the register's value, column "Reads" of R12; JEQ and JNE only when taken,
which `e`, the E flag, decides. -/
def readsReg (e : Bool) (q : Reg) : Instr → Bool
  | .hlt => false
  | .ldi _ _ => false
  | .prn r => names r q
  | .add ra rb => names ra q || names rb q
  | .mul ra rb => names ra q || names rb q
  | .cmp ra rb => names ra q || names rb q
  | .push r => decide (q = .sp) || names r q
  | .pop _ => decide (q = .sp)
  | .call r => decide (q = .sp) || names r q
  | .ret => decide (q = .sp)
  | .jmp r => names r q
  | .jeq r => e && names r q
  | .jne r => !e && names r q

/-- The instruction writes the register, column "Writes" of R12. -/
def writesReg (q : Reg) : Instr → Bool
  | .hlt => false
  | .ldi r _ => names r q
  | .prn _ => false
  | .add ra _ => names ra q
  | .mul ra _ => names ra q
  | .cmp _ _ => false
  | .push _ => decide (q = .sp)
  | .pop r => names r q || decide (q = .sp)
  | .call _ => decide (q = .sp)
  | .ret => decide (q = .sp)
  | .jmp _ => false
  | .jeq _ => false
  | .jne _ => false

/-- The instruction forms a next address that is checked: the sequential ones and CALL always, JEQ and
JNE when not taken, which `e`, the E flag, decides (R77, R105, R126 item 4). -/
def checksNextAddress (e : Bool) : Mnemonic → Bool
  | .hlt => false
  | .ldi => true
  | .prn => true
  | .add => true
  | .mul => true
  | .cmp => true
  | .push => true
  | .pop => true
  | .call => true
  | .ret => false
  | .jmp => false
  | .jeq => !e
  | .jne => e

/-- The faults of an instruction with one register operand, at its address and operand byte: the
operand address (pc = 255), then the register index. Every such instruction has these two (R73,
R74). -/
def OperandFaultsR (m : Byte → State → Outcome) : Prop :=
  ∀ (a : Byte) (s : State),
    (s.pc.toNat = 255 → m a s = .next (s.faultedWith .addressOutOfRange 256)) ∧
    (s.pc.toNat ≤ 254 → 7 < a.toNat →
      m a s = .next (s.faultedWith .registerIndexOutOfRange a.toNat))

/-- The faults of ADD, MUL and CMP (R92 "Faults"): operand address, register index of byte 1, of byte
2, then the advance `pc + 3`. -/
def FaultsRR (m : Byte → Byte → State → Outcome) : Prop :=
  ∀ (a b : Byte) (s : State),
    (254 ≤ s.pc.toNat → m a b s = .next (s.faultedWith .addressOutOfRange 256)) ∧
    (s.pc.toNat ≤ 253 → 7 < a.toNat →
      m a b s = .next (s.faultedWith .registerIndexOutOfRange a.toNat)) ∧
    (s.pc.toNat ≤ 253 → a.toNat ≤ 7 → 7 < b.toNat →
      m a b s = .next (s.faultedWith .registerIndexOutOfRange b.toNat)) ∧
    (s.pc.toNat = 253 → a.toNat ≤ 7 → b.toNat ≤ 7 →
      m a b s = .next (s.faultedWith .addressOutOfRange 256))

end Sys2Proof.Machine
end

