-- ==== Sys2Proof/Certificates/Slice0/Obligations.lean ====
section
/-! DEFINITION. The statements for the provers. Each docstring names the rule of spec/ (R<n>), and,
where a clause rests on a decision the spec marks as its own, that decision (D<n>). -/

open Sys2Proof Sys2Proof.Machine

/-! ### Encoding -/

/-- R50, R52, R57: whatever follows it, an encoded instruction decodes to itself, with every operand at
every byte value. -/
def Obligations.DecodeOfEncodeIsTheInstruction : Prop :=
  ∀ (i : Instr) (rest : List Byte), decode (encode i ++ rest) = .ok (i, rest)

/-- R50, R57: each byte sequence that decodes is the encoding of the instruction it decodes to. -/
def Obligations.DecodedBytesAreTheEncoding : Prop :=
  ∀ (bytes : List Byte) (i : Instr) (rest : List Byte),
    decode bytes = .ok (i, rest) → bytes = encode i ++ rest

/-- R56 (default map, decision D1): bytes written out from the rules, one for each format. -/
def Obligations.WrittenOutWordsDecode : Prop :=
  decode [0x01] = .ok (.hlt, []) ∧
  decode [0x82, 0x06, 0xF0] = .ok (.ldi 6 0xF0, []) ∧
  decode [0x47, 0x03] = .ok (.prn 3, []) ∧
  decode [0xA7, 0x01, 0x04] = .ok (.cmp 1 4, []) ∧
  decode [0x50, 0x01] = .ok (.call 1, []) ∧
  decode [0x55, 0x05] = .ok (.jeq 5, []) ∧
  decodeTableWord 24 0x0800A0 = some (.add 0 8)

/-- R57: the whole byte is looked up; a byte of the map is its mnemonic, with length `1 + op[7:6]` and
ALU-routed by bit 5, which is 1 for ADD, MUL and CMP only; any other byte is unknown; two different
bytes are never one opcode. -/
def Obligations.OpcodeLookupIsByWholeByte : Prop :=
  (∀ (i : Instr) (op : Byte), op = Config.opcodeMap i.mnemonic →
    lookupOpcode op = some i.mnemonic ∧
    (encode i).length = 1 + op.toNat / 64 ∧
    aluRouted op = op.getLsbD 5 ∧
    (op.getLsbD 5 = true ↔ i.mnemonic = .add ∨ i.mnemonic = .mul ∨ i.mnemonic = .cmp)) ∧
  (∀ op : Byte, (∀ m, op ≠ Config.opcodeMap m) → lookupOpcode op = none) ∧
  (∀ (op op' : Byte) (m : Mnemonic), op ≠ op' → lookupOpcode op = some m →
    lookupOpcode op' ≠ some m)

/-- R58, R59, R72 (decisions D2, D4): the 13 bytes of the map are the known ones, bytes 0xC0 to 0xFF
are all unknown, and executing an unknown byte raises `UnknownOpcode` with the byte as `info` and
changes nothing else. -/
def Obligations.UnknownOpcodeFaults : Prop :=
  (∀ op : Byte, lookupOpcode op = none ↔
    op ∉ ([0x01, 0x82, 0x47, 0xA0, 0xA2, 0xA7, 0x45, 0x46, 0x50, 0x11, 0x54, 0x55, 0x56] :
      List Byte)) ∧
  (∀ op : Byte, 0xC0 ≤ op.toNat → lookupOpcode op = none) ∧
  (∀ s : State, s.status = .running → lookupOpcode (s.memRead s.pc) = none →
    step s = .next (s.faultedWith .unknownOpcode (s.memRead s.pc).toNat))

/-! ### The step -/

/-- R71, R73, R78: while Running, when the bytes at PC decode to an instruction, the step is exec of
it; nothing is added around exec. -/
def Obligations.StepRunsTheDecodedInstruction : Prop :=
  ∀ (s : State) (i : Instr) (rest : List Byte), s.status = .running →
    decode (s.mem.bytesFrom s.pc.toNat 3) = .ok (i, rest) → step s = exec i s

/-- R142 and log entry 7 (the model's own): an instruction placed by `withFetchWord` is the one the
next step runs. -/
def Obligations.PlacedInstructionIsRun : Prop :=
  ∀ (s : State) (nbits w : Nat) (i : Instr), s.pc.toNat ≤ 253 →
    decodeTableWord nbits w = some i →
      step (s.withFetchWord nbits w) = exec i (s.withFetchWord nbits w)

/-- R126 (decision D4): the first fault condition in the fixed order is the one raised, and when there
is none the step completes without a fault. -/
def Obligations.ChecksAreMadeInOrder : Prop :=
  ∀ s : State, s.status = .running →
    match lookupOpcode (s.memRead s.pc) with
    | none => step s = .next (s.faultedWith .unknownOpcode (s.memRead s.pc).toNat)
    | some m =>
      if s.pc.toNat + m.format.operandBytes > 255 then
        step s = .next (s.faultedWith .addressOutOfRange 256)
      else if m.format ≠ .f0 ∧ 7 < (s.memRead (s.pc + 1)).toNat then
        step s = .next (s.faultedWith .registerIndexOutOfRange (s.memRead (s.pc + 1)).toNat)
      else if m.format = .f2rr ∧ 7 < (s.memRead (s.pc + 2)).toNat then
        step s = .next (s.faultedWith .registerIndexOutOfRange (s.memRead (s.pc + 2)).toNat)
      else if checksNextAddress s.flagE m = true ∧
          s.pc.toNat + (1 + m.format.operandBytes) > 255 then
        step s = .next (s.faultedWith .addressOutOfRange 256)
      else
        ∃ t, step s = .next t ∧ ∀ r, t.status ≠ .faulted r

/-- R70, R125, R127 (the form of the last clause is log entry 3): in Ready and Halted the engine does
nothing; in Faulted it executes nothing and the model reports the record as its fault. -/
def Obligations.EngineStepsOnlyWhileRunning : Prop :=
  ∀ s : State,
    (s.status = .ready → step s = .next s) ∧
    (s.status = .halted → step s = .next s) ∧
    (∀ r, s.status = .faulted r → step s = .fault (.engineFaulted r))

/-- R78, R123: while Running every step answers a next state, in which the engine is Running, Halted or
Faulted. -/
def Obligations.RunningStepAnswersNextState : Prop :=
  ∀ s : State, s.status = .running →
    ∃ t, step s = .next t ∧
      (t.status = .running ∨ t.status = .halted ∨ ∃ r, t.status = .faulted r)

/-! ### Invariants -/

/-- R15, R23, R121, R124 (decisions D10, D12) and the memory's canonical form: every step keeps the
invariant. -/
def Obligations.StepKeepsInvariant : Prop :=
  ∀ s t : State, s.Inv → step s = .next t → t.Inv

/-- The invariant holds at reset. -/
def Obligations.ResetMeetsInvariant : Prop := State.reset.Inv

/-- Every host operation keeps the invariant (R165 to R169). -/
def Obligations.HostOperationsKeepInvariant : Prop :=
  ∀ s t : State, s.Inv →
    (hostReset s).Inv ∧
    (∀ program, hostLoad program s = .ok t → t.Inv) ∧
    (∀ address value, hostWrite address value s = .ok t → t.Inv) ∧
    (hostRun s = .ok t → t.Inv)

/-- R23: in every reachable state PC names a memory cell, every register and memory value is
representable in 8 bits, and at most one of the three flags is set. -/
def Obligations.ReachableStatesMeetStatedInvariants : Prop :=
  ∀ s : State, Reachable s →
    s.pc.toNat ≤ 255 ∧
    (∀ q, (s.reg q).toNat ≤ 255) ∧
    (∀ x, (s.memRead x).toNat ≤ 255) ∧
    ¬ (s.flagE = true ∧ s.flagG = true) ∧
    ¬ (s.flagE = true ∧ s.flagL = true) ∧
    ¬ (s.flagG = true ∧ s.flagL = true)

/-! ### Faults -/

/-- R123, R124 (decision D4): a step that raises a fault changes the status and the record alone, and
the record's `addr` is PC. -/
def Obligations.FaultingStepChangesNothingElse : Prop :=
  ∀ (s t : State) (r : FaultRecord), s.status = .running → step s = .next t →
    t.status = .faulted r → r.addr = s.pc ∧ t = s.faultedWith r.cause r.info

/-- R20, R91, R121 (decisions D3, D4, D12): a raised record has PC as `addr` and the `info` its cause
gives it: the byte at PC for an unknown opcode, 256 for an address, the offending operand byte for a
register index (byte 2 only of a two-register instruction whose byte 1 is legal). The ALU answers its
error indication exactly for the selectors outside ADD, MUL and CMP, no step raises that fault, and
the causes are numbered 1 to 4. -/
def Obligations.FaultRecordsAreAsListed : Prop :=
  (∀ (s t : State) (r : FaultRecord), s.status = .running → step s = .next t →
    t.status = .faulted r →
      r.addr = s.pc ∧ r.Legal ∧ r.cause ≠ .aluContractViolation ∧
      (r.cause = .unknownOpcode → r.info = (s.memRead s.pc).toNat) ∧
      (r.cause = .addressOutOfRange → r.info = 256) ∧
      (r.cause = .registerIndexOutOfRange →
        7 < r.info ∧
        (r.info = (s.memRead (s.pc + 1)).toNat ∨
          (∃ m, lookupOpcode (s.memRead s.pc) = some m ∧ m.format = .f2rr) ∧
            (s.memRead (s.pc + 1)).toNat ≤ 7 ∧ r.info = (s.memRead (s.pc + 2)).toNat))) ∧
  (∀ (sel : Mnemonic) (va vb : Byte),
    alu sel va vb = .unsupported ↔ sel ≠ .add ∧ sel ≠ .mul ∧ sel ≠ .cmp) ∧
  FaultCause.unknownOpcode.code = 1 ∧ FaultCause.aluContractViolation.code = 2 ∧
  FaultCause.addressOutOfRange.code = 3 ∧ FaultCause.registerIndexOutOfRange.code = 4

/-- R122: whether and how an instruction faults depends on PC and its operand bytes (and on whether a
conditional branch is taken), never on register values, memory, the stack pointer or a target. -/
def Obligations.ComputedValuesCauseNoFault : Prop :=
  ∀ (i : Instr) (s s' t : State) (r : FaultRecord),
    s.status = .running → s'.pc = s.pc → s'.flagE = s.flagE →
    exec i s = .next t → t.status = .faulted r →
      exec i s' = .next (s'.faultedWith r.cause r.info)

/-! ### The ALU, the flags and the branch controller -/

/-- R90: the ALU as a function of selector and two values. The flags bytes are R90's own; that their
bits 7:3 are 0 is decision D10 (log entry 11). -/
def Obligations.AluIsAFunctionOfItsOperands : Prop :=
  ∀ va vb : Byte,
    alu .add va vb = .result (BitVec.ofNat 8 ((va.toNat + vb.toNat) % 256)) ∧
    alu .mul va vb = .result (BitVec.ofNat 8 ((va.toNat * vb.toNat) % 256)) ∧
    (va.toNat = vb.toNat → alu .cmp va vb = .flags 0x01) ∧
    (va.toNat > vb.toNat → alu .cmp va vb = .flags 0x02) ∧
    (va.toNat < vb.toNat → alu .cmp va vb = .flags 0x04)

/-- R96: the complete table of CMP's flag outcomes. That bits 7:3 of FL are 0 is decision D10 (log
entry 11). -/
def Obligations.CompareSetsExactlyOneFlag : Prop :=
  ∀ (a b : Byte) (ra rb : Reg) (s : State),
    Reg.ofIndex a = some ra → Reg.ofIndex b = some rb → s.pc.toNat ≤ 252 →
      ∃ t, exec (.cmp a b) s = .next t ∧
        ((s.reg ra).toNat = (s.reg rb).toNat →
          t.fl = 0x01 ∧ t.flagE = true ∧ t.flagG = false ∧ t.flagL = false) ∧
        ((s.reg ra).toNat > (s.reg rb).toNat →
          t.fl = 0x02 ∧ t.flagE = false ∧ t.flagG = true ∧ t.flagL = false) ∧
        ((s.reg ra).toNat < (s.reg rb).toNat →
          t.fl = 0x04 ∧ t.flagE = false ∧ t.flagG = false ∧ t.flagL = true)

/-- R16: CMP alone writes FL, and writes the whole byte; JEQ and JNE alone read it, and of it only bit
0; no other part of the state depends on FL. -/
def Obligations.FlagsAreWrittenByCmpAndReadByBranches : Prop :=
  (∀ (i : Instr) (s t : State), exec i s = .next t →
    t.fl = s.fl ∨ ∃ a b, i = .cmp a b) ∧
  (∀ (a b : Byte) (ra rb : Reg) (s : State) (f : Byte),
    Reg.ofIndex a = some ra → Reg.ofIndex b = some rb → s.pc.toNat ≤ 252 →
      exec (.cmp a b) (s.setFl f) = exec (.cmp a b) s) ∧
  (∀ (i : Instr) (s t : State) (f : Byte),
    (∀ a, i ≠ .jeq a ∧ i ≠ .jne a) ∨ f.getLsbD 0 = s.fl.getLsbD 0 →
    exec i s = .next t →
      ∃ t', exec i (s.setFl f) = .next t' ∧ t'.regs = t.regs ∧ t'.pc = t.pc ∧ t'.mem = t.mem ∧
        t'.status = t.status ∧ t'.output = t.output)

/-- R111: the branch controller looks at bit 0 of FL alone; JEQ branches on 1, JNE on 0; FL does not
change; on FL = 0x00, the reset value by decision D7, JEQ falls through and JNE branches. -/
def Obligations.BranchControllerReadsEqualFlagOnly : Prop :=
  (∀ (a : Byte) (r : Reg) (s : State), Reg.ofIndex a = some r → s.pc.toNat ≤ 253 →
    exec (.jeq a) s = .next (s.setPc
      (if s.fl.getLsbD 0 = true then s.reg r else BitVec.ofNat 8 (s.pc.toNat + 2))) ∧
    exec (.jne a) s = .next (s.setPc
      (if s.fl.getLsbD 0 = false then s.reg r else BitVec.ofNat 8 (s.pc.toNat + 2)))) ∧
  (∀ (a : Byte) (r : Reg) (s : State), Reg.ofIndex a = some r → s.pc.toNat ≤ 253 → s.fl = 0x00 →
    exec (.jeq a) s = .next (s.setPc (BitVec.ofNat 8 (s.pc.toNat + 2))) ∧
    exec (.jne a) s = .next (s.setPc (s.reg r)))

/-! ### Memory and the stack pointer -/

/-- R30 (that `load` leaves the cells past the program: decision D14; that reset clears memory: D17;
log entry 11): a write sets one cell and changes nothing else; a read returns the byte most recently
written by MemWrite, by `load` or by `write`, and 0x00 after reset. -/
def Obligations.ReadReturnsLatestWrite : Prop :=
  (∀ (s : State) (x v y : Byte),
    (s.memWrite x v).memRead y = (if y = x then v else s.memRead y) ∧
    (s.memWrite x v).regs = s.regs ∧ (s.memWrite x v).pc = s.pc ∧ (s.memWrite x v).fl = s.fl ∧
    (s.memWrite x v).status = s.status ∧ (s.memWrite x v).output = s.output) ∧
  (∀ (s t : State) (address value : Nat) (y : Byte), hostWrite address value s = .ok t →
    t.memRead y = if y.toNat = address then BitVec.ofNat 8 value else s.memRead y) ∧
  (∀ (s t : State) (program : List Byte) (y : Byte), hostLoad program s = .ok t →
    t.memRead y = program.getD y.toNat (s.memRead y)) ∧
  (∀ y : Byte, State.reset.memRead y = 0x00)

/-- The model's own (log entry 8): memories in canonical form that read the same everywhere are
equal. -/
def Obligations.CanonicalMemoriesAreEqualWhenReadEqual : Prop :=
  ∀ m m' : Memory, m.wf = true → m'.wf = true → (∀ x : Byte, m.read x = m'.read x) → m = m'

/-- R37: PUSH and CALL decrement the stack pointer modulo 256 and store at the new value; POP and RET
read at the old value and increment modulo 256; none of these faults through its stack access; 0x00
wraps to 0xFF and back. For the operand R6 the byte PUSH stores (the new pointer) and the pointer POP
leaves (the loaded byte plus one) are decision D9 (log entry 11), and pc ≤ 253 is D5. -/
def Obligations.StackPointerWrapsModulo256 : Prop :=
  (∀ (a : Byte) (r : Reg) (s : State), Reg.ofIndex a = some r → s.pc.toNat ≤ 253 →
    (∃ t, exec (.push a) s = .next t ∧ t.status = s.status ∧
      (t.reg .sp).toNat = ((s.reg .sp).toNat + 255) % 256 ∧
      t.memRead (t.reg .sp) = t.reg r) ∧
    (∃ t, exec (.call a) s = .next t ∧ t.status = s.status ∧
      (t.reg .sp).toNat = ((s.reg .sp).toNat + 255) % 256 ∧
      (t.memRead (t.reg .sp)).toNat = s.pc.toNat + 2) ∧
    (∃ t, exec (.pop a) s = .next t ∧ t.status = s.status ∧
      (t.reg .sp).toNat =
        ((if r = .sp then s.memRead (s.reg .sp) else s.reg .sp).toNat + 1) % 256 ∧
      (r ≠ .sp → t.reg r = s.memRead (s.reg .sp)))) ∧
  (∀ s : State, ∃ t, exec .ret s = .next t ∧ t.status = s.status ∧
    (t.reg .sp).toNat = ((s.reg .sp).toNat + 1) % 256 ∧ t.pc = s.memRead (s.reg .sp)) ∧
  (∀ (a : Byte) (r : Reg) (s : State), Reg.ofIndex a = some r → s.pc.toNat ≤ 253 →
    s.reg .sp = 0x00 →
      ∃ t, exec (.push a) s = .next t ∧ t.reg .sp = 0xFF ∧ t.memRead 0xFF = t.reg r) ∧
  (∀ (a : Byte) (r : Reg) (s : State), Reg.ofIndex a = some r → r ≠ .sp → s.pc.toNat ≤ 253 →
    s.reg .sp = 0xFF →
      ∃ t, exec (.pop a) s = .next t ∧ t.reg .sp = 0x00 ∧ t.reg r = s.memRead 0xFF)

/-! ### The instructions -/

/-- R80 (PC unchanged: decision D8; byte 0x01: D1): HLT at every address. -/
def Obligations.HltStopsTheEngine : Prop :=
  (∀ rest, decode (0x01 :: rest) = .ok (.hlt, rest)) ∧
  ∀ s : State, exec .hlt s = .next { s with status := .halted }

/-- R85 (byte 0x82: decision D1, log entry 1; faults and their order: D4, D5, log entry 11): LDI. -/
def Obligations.LdiLoadsTheImmediate : Prop :=
  ∀ (a imm : Byte) (s : State),
    (∀ rest, decode (0x82 :: a :: imm :: rest) = .ok (.ldi a imm, rest)) ∧
    (∀ r, Reg.ofIndex a = some r → s.pc.toNat ≤ 252 →
      exec (.ldi a imm) s =
        .next ((s.setReg r imm).setPc (BitVec.ofNat 8 (s.pc.toNat + 3)))) ∧
    (254 ≤ s.pc.toNat →
      exec (.ldi a imm) s = .next (s.faultedWith .addressOutOfRange 256)) ∧
    (s.pc.toNat ≤ 253 → 7 < a.toNat →
      exec (.ldi a imm) s = .next (s.faultedWith .registerIndexOutOfRange a.toNat)) ∧
    (s.pc.toNat = 253 → a.toNat ≤ 7 →
      exec (.ldi a imm) s = .next (s.faultedWith .addressOutOfRange 256))

/-- R86 (byte 0x47: decision D1; faults: D4, D5): PRN appends the register's byte to the output log. -/
def Obligations.PrnAppendsTheRegister : Prop :=
  (∀ (a : Byte) (rest : List Byte), decode (0x47 :: a :: rest) = .ok (.prn a, rest)) ∧
  (∀ (a : Byte) (r : Reg) (s : State), Reg.ofIndex a = some r → s.pc.toNat ≤ 253 →
    exec (.prn a) s = .next { s with
      output := s.output ++ [s.reg r], pc := BitVec.ofNat 8 (s.pc.toNat + 2) }) ∧
  OperandFaultsR (fun a s => exec (.prn a) s) ∧
  (∀ (a : Byte) (s : State), s.pc.toNat = 254 → a.toNat ≤ 7 →
    exec (.prn a) s = .next (s.faultedWith .addressOutOfRange 256))

/-- R92 (byte 0xA0: decision D1, log entry 1; faults and their order: D4, D5, log entry 11): ADD. -/
def Obligations.AddWrapsModulo256 : Prop :=
  (∀ (a b : Byte) (rest : List Byte),
    decode (0xA0 :: a :: b :: rest) = .ok (.add a b, rest)) ∧
  (∀ (a b : Byte) (ra rb : Reg) (s : State),
    Reg.ofIndex a = some ra → Reg.ofIndex b = some rb → s.pc.toNat ≤ 252 →
      exec (.add a b) s = .next ((s.setReg ra
        (BitVec.ofNat 8 (((s.reg ra).toNat + (s.reg rb).toNat) % 256))).setPc
          (BitVec.ofNat 8 (s.pc.toNat + 3)))) ∧
  FaultsRR (fun a b s => exec (.add a b) s)

/-- R93 (byte 0xA2: decision D1, log entry 1; faults and their order: D4, D5, log entry 11): MUL. -/
def Obligations.MulKeepsTheLowByte : Prop :=
  (∀ (a b : Byte) (rest : List Byte),
    decode (0xA2 :: a :: b :: rest) = .ok (.mul a b, rest)) ∧
  (∀ (a b : Byte) (ra rb : Reg) (s : State),
    Reg.ofIndex a = some ra → Reg.ofIndex b = some rb → s.pc.toNat ≤ 252 →
      exec (.mul a b) s = .next ((s.setReg ra
        (BitVec.ofNat 8 (((s.reg ra).toNat * (s.reg rb).toNat) % 256))).setPc
          (BitVec.ofNat 8 (s.pc.toNat + 3)))) ∧
  FaultsRR (fun a b s => exec (.mul a b) s)

/-- R94 (byte 0xA7: decision D1, log entry 1; faults and their order: D4, D5, and bits 7:3 of FL: D10,
log entry 11): CMP. -/
def Obligations.CmpWritesTheFlagsByte : Prop :=
  (∀ (a b : Byte) (rest : List Byte),
    decode (0xA7 :: a :: b :: rest) = .ok (.cmp a b, rest)) ∧
  (∀ (a b : Byte) (ra rb : Reg) (s : State),
    Reg.ofIndex a = some ra → Reg.ofIndex b = some rb → s.pc.toNat ≤ 252 →
      exec (.cmp a b) s = .next ((s.setFl
        (if (s.reg ra).toNat = (s.reg rb).toNat then 0x01
         else if (s.reg ra).toNat > (s.reg rb).toNat then 0x02 else 0x04)).setPc
          (BitVec.ofNat 8 (s.pc.toNat + 3)))) ∧
  FaultsRR (fun a b s => exec (.cmp a b) s)

/-- R101 (PUSH R6 stores the decremented pointer: decision D9; byte 0x45: D1; faults: D4, D5): PUSH. -/
def Obligations.PushStoresBelowTheStackPointer : Prop :=
  (∀ (a : Byte) (rest : List Byte), decode (0x45 :: a :: rest) = .ok (.push a, rest)) ∧
  (∀ (a : Byte) (r : Reg) (s : State), Reg.ofIndex a = some r → s.pc.toNat ≤ 253 →
    exec (.push a) s = .next (((s.setReg .sp (s.reg .sp - 1)).memWrite (s.reg .sp - 1)
      (if r = .sp then s.reg .sp - 1 else s.reg r)).setPc (BitVec.ofNat 8 (s.pc.toNat + 2)))) ∧
  OperandFaultsR (fun a s => exec (.push a) s) ∧
  (∀ (a : Byte) (s : State), s.pc.toNat = 254 → a.toNat ≤ 7 →
    exec (.push a) s = .next (s.faultedWith .addressOutOfRange 256))

/-- R102 (POP R6 is loaded, then incremented: decision D9; byte 0x46: D1; faults: D4, D5): POP. -/
def Obligations.PopLoadsFromTheStackPointer : Prop :=
  (∀ (a : Byte) (rest : List Byte), decode (0x46 :: a :: rest) = .ok (.pop a, rest)) ∧
  (∀ (a : Byte) (r : Reg) (s : State), Reg.ofIndex a = some r → s.pc.toNat ≤ 253 →
    ∃ t, exec (.pop a) s = .next t ∧
      t.reg .sp = (if r = .sp then s.memRead (s.reg .sp) + 1 else s.reg .sp + 1) ∧
      (r ≠ .sp → t.reg r = s.memRead (s.reg .sp)) ∧
      (∀ q, q ≠ r → q ≠ .sp → t.reg q = s.reg q) ∧
      t.pc = BitVec.ofNat 8 (s.pc.toNat + 2) ∧
      t.fl = s.fl ∧ t.mem = s.mem ∧ t.status = s.status ∧ t.output = s.output) ∧
  OperandFaultsR (fun a s => exec (.pop a) s) ∧
  (∀ (a : Byte) (s : State), s.pc.toNat = 254 → a.toNat ≤ 7 →
    exec (.pop a) s = .next (s.faultedWith .addressOutOfRange 256))

/-- R105 (no wrap of the return address: decision D5; CALL R6 jumps to the decremented pointer: D9;
byte 0x50: D1): CALL. -/
def Obligations.CallPushesTheReturnAddress : Prop :=
  (∀ (a : Byte) (rest : List Byte), decode (0x50 :: a :: rest) = .ok (.call a, rest)) ∧
  (∀ (a : Byte) (r : Reg) (s : State), Reg.ofIndex a = some r → s.pc.toNat ≤ 253 →
    exec (.call a) s = .next (((s.setReg .sp (s.reg .sp - 1)).memWrite (s.reg .sp - 1)
      (BitVec.ofNat 8 (s.pc.toNat + 2))).setPc
        (if r = .sp then s.reg .sp - 1 else s.reg r))) ∧
  OperandFaultsR (fun a s => exec (.call a) s) ∧
  (∀ (a : Byte) (s : State), s.pc.toNat = 254 → a.toNat ≤ 7 →
    exec (.call a) s = .next (s.faultedWith .addressOutOfRange 256))

/-- R106 (byte 0x11: decision D1, log entry 1): RET, at every address; it never faults. -/
def Obligations.RetPopsThePc : Prop :=
  (∀ rest, decode (0x11 :: rest) = .ok (.ret, rest)) ∧
  ∀ s : State,
    exec .ret s = .next ((s.setReg .sp (BitVec.ofNat 8 (((s.reg .sp).toNat + 1) % 256))).setPc
      (s.memRead (s.reg .sp)))

/-- R110 (byte 0x54: decision D1, log entry 1; faults and their order: D4, D5, log entry 11): JMP; at
pc = 254 it is legal. -/
def Obligations.JmpGoesToTheRegister : Prop :=
  (∀ (a : Byte) (rest : List Byte), decode (0x54 :: a :: rest) = .ok (.jmp a, rest)) ∧
  (∀ (a : Byte) (r : Reg) (s : State), Reg.ofIndex a = some r → s.pc.toNat ≤ 254 →
    exec (.jmp a) s = .next (s.setPc (s.reg r))) ∧
  OperandFaultsR (fun a s => exec (.jmp a) s)

/-- R112 (index checked also when not taken: decision D19; byte 0x55: D1; faults: D4, D5): JEQ; taken
at pc = 254 it is legal. -/
def Obligations.JeqBranchesWhenEqual : Prop :=
  (∀ (a : Byte) (rest : List Byte), decode (0x55 :: a :: rest) = .ok (.jeq a, rest)) ∧
  (∀ (a : Byte) (r : Reg) (s : State), Reg.ofIndex a = some r → s.fl.getLsbD 0 = true →
    s.pc.toNat ≤ 254 → exec (.jeq a) s = .next (s.setPc (s.reg r))) ∧
  (∀ (a : Byte) (s : State), a.toNat ≤ 7 → s.fl.getLsbD 0 = false → s.pc.toNat ≤ 253 →
    exec (.jeq a) s = .next (s.setPc (BitVec.ofNat 8 (s.pc.toNat + 2)))) ∧
  OperandFaultsR (fun a s => exec (.jeq a) s) ∧
  (∀ (a : Byte) (s : State), a.toNat ≤ 7 → s.fl.getLsbD 0 = false → s.pc.toNat = 254 →
    exec (.jeq a) s = .next (s.faultedWith .addressOutOfRange 256))

/-- R113 (faults as JEQ: index checked also when not taken: decision D19; D4, D5; byte 0x56: D1): JNE;
taken at pc = 254 it is legal. -/
def Obligations.JneBranchesWhenNotEqual : Prop :=
  (∀ (a : Byte) (rest : List Byte), decode (0x56 :: a :: rest) = .ok (.jne a, rest)) ∧
  (∀ (a : Byte) (r : Reg) (s : State), Reg.ofIndex a = some r → s.fl.getLsbD 0 = false →
    s.pc.toNat ≤ 254 → exec (.jne a) s = .next (s.setPc (s.reg r))) ∧
  (∀ (a : Byte) (s : State), a.toNat ≤ 7 → s.fl.getLsbD 0 = true → s.pc.toNat ≤ 253 →
    exec (.jne a) s = .next (s.setPc (BitVec.ofNat 8 (s.pc.toNat + 2)))) ∧
  OperandFaultsR (fun a s => exec (.jne a) s) ∧
  (∀ (a : Byte) (s : State), a.toNat ≤ 7 → s.fl.getLsbD 0 = true → s.pc.toNat = 254 →
    exec (.jne a) s = .next (s.faultedWith .addressOutOfRange 256))

/-! ### Frames: what stays as it was whenever exec answers a next state -/

/-- R12, R16, R35: LDI, ADD and MUL leave every register but the destination, FL, the output log and
every byte of memory as they were; the status changes only to Faulted. -/
def Obligations.LdiAddMulChangeOnlyTheirDestination : Prop :=
  ∀ (a b : Byte) (i : Instr) (s t : State),
    i = .ldi a b ∨ i = .add a b ∨ i = .mul a b → exec i s = .next t →
      (∀ q, Reg.ofIndex a ≠ some q → t.reg q = s.reg q) ∧
      t.fl = s.fl ∧ t.output = s.output ∧ (∀ x, t.memRead x = s.memRead x) ∧
      (t.status = s.status ∨ ∃ r, t.status = .faulted r)

/-- R12, R16, R21, R35: CMP leaves every register, the output log and memory; PRN leaves every register,
FL and memory, and only appends to the output log. -/
def Obligations.CmpAndPrnChangeNoRegisterAndNoMemory : Prop :=
  ∀ (i : Instr) (s t : State),
    (∃ a b, i = .cmp a b) ∨ (∃ a, i = .prn a) → exec i s = .next t →
      (∀ q, t.reg q = s.reg q) ∧ (∀ x, t.memRead x = s.memRead x) ∧
      ((∃ a b, i = .cmp a b) → t.output = s.output) ∧
      ((∃ a, i = .prn a) → t.fl = s.fl ∧
        (t.output = s.output ∨ ∃ v, t.output = s.output ++ [v])) ∧
      (t.status = s.status ∨ ∃ r, t.status = .faulted r)

/-- R12, R35, R104: PUSH and CALL leave every register but R6, FL, the output log, and every byte of
memory but the one at the decremented stack pointer. -/
def Obligations.PushAndCallChangeOneByteAndTheStackPointer : Prop :=
  ∀ (a : Byte) (i : Instr) (s t : State), i = .push a ∨ i = .call a → exec i s = .next t →
    (∀ q, q ≠ .sp → t.reg q = s.reg q) ∧ t.fl = s.fl ∧ t.output = s.output ∧
    (∀ x, x ≠ s.predecSp.reg .sp → t.memRead x = s.memRead x) ∧
    (t.status = s.status ∨ ∃ r, t.status = .faulted r)

/-- R12, R35, R104: POP leaves every register but its operand and R6, RET every register but R6; both
leave FL, the output log and every byte of memory. -/
def Obligations.PopAndRetChangeNoMemory : Prop :=
  ∀ (i : Instr) (s t : State), (∃ a, i = .pop a) ∨ i = .ret → exec i s = .next t →
    (∀ q, q ≠ .sp → (∀ a, i = .pop a → Reg.ofIndex a ≠ some q) → t.reg q = s.reg q) ∧
    t.fl = s.fl ∧ t.output = s.output ∧ (∀ x, t.memRead x = s.memRead x) ∧
    (t.status = s.status ∨ ∃ r, t.status = .faulted r)

/-- R12, R16, R35: HLT, JMP, JEQ and JNE leave every register, FL, the output log and every byte of
memory; HLT also leaves PC. -/
def Obligations.JumpsAndHltChangeOnlyPcOrStatus : Prop :=
  ∀ (i : Instr) (s t : State),
    i = .hlt ∨ (∃ a, i = .jmp a ∨ i = .jeq a ∨ i = .jne a) → exec i s = .next t →
      (∀ q, t.reg q = s.reg q) ∧ t.fl = s.fl ∧ t.output = s.output ∧
      (∀ x, t.memRead x = s.memRead x) ∧
      (i = .hlt → t.pc = s.pc ∧ t.status = .halted) ∧
      (i ≠ .hlt → t.status = s.status ∨ ∃ r, t.status = .faulted r)

/-! ### Rules about the whole machine -/

/-- R12: an instruction's outcome does not depend on a register it does not read, which keeps its value
unless the instruction writes it. -/
def Obligations.UnreadRegistersDoNotMatter : Prop :=
  ∀ (i : Instr) (s t : State) (q : Reg) (v : Byte),
    readsReg s.flagE q i = false → exec i s = .next t →
      ∃ t', exec i (s.setReg q v) = .next t' ∧
        t'.pc = t.pc ∧ t'.fl = t.fl ∧ t'.mem = t.mem ∧ t'.status = t.status ∧
        t'.output = t.output ∧ (∀ p, p ≠ q → t'.reg p = t.reg p) ∧
        ((t.reg q = s.reg q ∧ t'.reg q = v) ∨ (writesReg q i = true ∧ t'.reg q = t.reg q))

/-- R79, R80: Running becomes Halted only by an HLT at PC, which changes nothing but the status. -/
def Obligations.OnlyHltHaltsTheEngine : Prop :=
  ∀ s t : State, s.status = .running → step s = .next t → t.status = .halted →
    lookupOpcode (s.memRead s.pc) = some .hlt ∧ t = { s with status := .halted }

/-- R21, R35, R104: in a step of a Running engine only PUSH and CALL change memory, only PRN changes the
output log, by appending one byte, and only CMP changes FL. -/
def Obligations.OnlyListedInstructionsChangeMemoryOutputFlags : Prop :=
  ∀ s t : State, s.status = .running → step s = .next t →
    ((∃ x, t.memRead x ≠ s.memRead x) →
      lookupOpcode (s.memRead s.pc) = some .push ∨ lookupOpcode (s.memRead s.pc) = some .call) ∧
    (t.output ≠ s.output →
      lookupOpcode (s.memRead s.pc) = some .prn ∧ ∃ v, t.output = s.output ++ [v]) ∧
    (t.fl ≠ s.fl → lookupOpcode (s.memRead s.pc) = some .cmp)

/-- R103: PUSH r and POP r in two steps, r not R6, leave every register as it was; only the stack cell
and PC change. The hypotheses on the stack pointer say that the store misses the POP's two bytes. -/
def Obligations.PushThenPopRestoresRegisters : Prop :=
  ∀ (s : State) (a : Byte) (r : Reg), s.status = .running → Reg.ofIndex a = some r → r ≠ .sp →
    s.pc.toNat ≤ 251 →
    s.memRead s.pc = 0x45 → s.memRead (s.pc + 1) = a →
    s.memRead (s.pc + 2) = 0x46 → s.memRead (s.pc + 3) = a →
    s.reg .sp - 1 ≠ s.pc + 2 → s.reg .sp - 1 ≠ s.pc + 3 →
      ∃ t u, step s = .next t ∧ step t = .next u ∧ (∀ q, u.reg q = s.reg q) ∧
        u.pc = s.pc + 4 ∧ u.fl = s.fl ∧ u.status = .running ∧ u.output = s.output ∧
        ∀ x, u.memRead x = if x = s.reg .sp - 1 then s.reg r else s.memRead x

/-- R107: after a CALL at pc ≤ 253, a RET executed with R6 and the cell it names as the CALL left them
goes to pc + 2 and gives R6 its value from before the CALL. -/
def Obligations.RetReturnsAfterTheCall : Prop :=
  ∀ (s t u : State) (a : Byte) (r : Reg), Reg.ofIndex a = some r → s.pc.toNat ≤ 253 →
    exec (.call a) s = .next t → u.reg .sp = t.reg .sp →
    u.memRead (u.reg .sp) = t.memRead (t.reg .sp) →
      ∃ v, exec .ret u = .next v ∧ v.pc = s.pc + 2 ∧ v.reg .sp = s.reg .sp

/-- R86 and the source's test S1 (rendering: decision D11): LDI r,v and then PRN r, in two executions,
adds to the sink's text exactly the decimal string of v and one line feed. -/
def Obligations.LoadThenPrintShowsTheDecimalString : Prop :=
  ∀ (a v : Byte) (s : State), a.toNat ≤ 7 → s.pc.toNat ≤ 250 →
    ∃ t u, exec (.ldi a v) s = .next t ∧ exec (.prn a) t = .next u ∧
      u.output = s.output ++ [v] ∧
      sinkText u.output = sinkText s.output ++ decimalText v ++ [Char.ofNat 10]

/-- R86 (decision D11): the decimal text is digits only, has no leading zero but for 0 itself, and its
value is the byte. -/
def Obligations.DecimalTextIsTheUnsignedValue : Prop :=
  ∀ v : Byte,
    (∀ c ∈ decimalText v, 48 ≤ c.toNat ∧ c.toNat ≤ 57) ∧
    (decimalText v).foldl (fun n c => 10 * n + (c.toNat - 48)) 0 = v.toNat ∧
    (decimalText v).length = (if v.toNat < 10 then 1 else if v.toNat < 100 then 2 else 3)

/-! ### Reset and the host -/

/-- R24, R140 (registers: decision D6; FL: D7; reset as an operation: D17): what reset leaves, from any
state. -/
def Obligations.ResetLeavesTheListedValues : Prop :=
  ∀ s : State,
    (hostReset s).pc = 0x00 ∧ (hostReset s).status = .ready ∧
    (∀ x, (hostReset s).memRead x = 0x00) ∧ (∀ q, (hostReset s).reg q = 0x00) ∧
    (hostReset s).fl = 0x00 ∧ (hostReset s).output = []

/-- R166 (decision D14): `load` in Ready. -/
def Obligations.LoadInstallsTheProgram : Prop :=
  ∀ (program : List Byte) (s : State), s.status = .ready →
    (program.length ≤ 256 →
      ∃ t, hostLoad program s = .ok t ∧
        (∀ x : Byte, (h : x.toNat < program.length) → t.memRead x = program[x.toNat]) ∧
        (∀ x : Byte, program.length ≤ x.toNat → t.memRead x = s.memRead x) ∧
        t.regs = s.regs ∧ t.pc = s.pc ∧ t.fl = s.fl ∧ t.status = s.status ∧
        t.output = s.output) ∧
    (256 < program.length → hostLoad program s = .error .addressOutOfRange)

/-- R168: `write`, in Ready, where R165 allows it (decision D13, log entry 11). -/
def Obligations.WriteSetsOneCellOrIsRefused : Prop :=
  ∀ (address value : Nat) (s : State), s.status = .ready →
    (address ≤ 255 → value ≤ 255 →
      ∃ t, hostWrite address value s = .ok t ∧
        (∀ x : Byte, t.memRead x =
          if x.toNat = address then BitVec.ofNat 8 value else s.memRead x) ∧
        t.regs = s.regs ∧ t.pc = s.pc ∧ t.fl = s.fl ∧ t.status = s.status ∧
        t.output = s.output) ∧
    (255 < address ∨ 255 < value → ∃ e, hostWrite address value s = .error e)

/-- R167: `read`, and observing, whenever the engine is not Running (when: R165, decision D13, log entry
11). R167 names no error: `addressOutOfRange` is the model's choice, log entry 5. -/
def Obligations.ReadReturnsTheCell : Prop :=
  ∀ (address : Nat) (s : State), s.status ≠ .running →
    (address ≤ 255 → hostRead address s = .ok (s.memRead (BitVec.ofNat 8 address))) ∧
    (255 < address → hostRead address s = .error .addressOutOfRange) ∧
    hostObserve s = .ok s

/-- R165 (decisions D13, D15): the table of when the host may act. -/
def Obligations.HostActsOnlyWhenAllowed : Prop :=
  ∀ (s : State) (program : List Byte) (address value : Nat),
    (s.status = .running →
      hostLoad program s = .error .notPossible ∧ hostWrite address value s = .error .notPossible ∧
      hostRun s = .error .notPossible ∧ hostRead address s = .error .notPossible ∧
      hostObserve s = .error .notPossible) ∧
    (s.status = .halted ∨ (∃ r, s.status = .faulted r) →
      hostLoad program s = .error .refused ∧ hostWrite address value s = .error .refused ∧
      hostRun s = .error .refused ∧
      hostRead address s ≠ .error .refused ∧ hostRead address s ≠ .error .notPossible ∧
      hostObserve s = .ok s) ∧
    (s.status = .ready →
      hostLoad program s ≠ .error .refused ∧ hostLoad program s ≠ .error .notPossible ∧
      hostWrite address value s ≠ .error .refused ∧
      hostWrite address value s ≠ .error .notPossible ∧
      hostRead address s ≠ .error .refused ∧ hostRead address s ≠ .error .notPossible ∧
      hostRun s = .ok { s with status := .running } ∧ hostObserve s = .ok s) ∧
    hostReset s = State.reset

/-- R79, R81, R169: a run makes a step for as long as the engine is Running and none when it is not; a
run of a Running engine is at every number of steps Running, Halted or Faulted, once it is not Running
it stays as it is, and a run may be stopped and resumed between steps. Status Faulted is decision D3,
the step count the executor's (D18). -/
def Obligations.RunStopsOnlyWhenHaltedOrFaulted : Prop :=
  ∀ (n k : Nat) (s : State),
    runFor 0 s = s ∧
    (s.status = .running → ∃ t, step s = .next t ∧ runFor (n + 1) s = runFor n t) ∧
    (∀ t, s.status = .running → step s = .next t → runFor (n + 1) s = runFor n t) ∧
    (s.status ≠ .running → runFor n s = s) ∧
    runFor (n + k) s = runFor k (runFor n s) ∧
    (s.status = .running →
      (runFor n s).status = .running ∨
      ((runFor n s).status = .halted ∨ ∃ r, (runFor n s).status = .faulted r) ∧
        runFor (n + k) s = runFor n s)

/-- R35, R41, R145 (what PUSH R6 stores: decision D9, log entry 11; byte values: D1, log entry 1; the
fault: D2): the byte `b` a PUSH or a CALL stored is what a later fetch reads at its address, as opcode
byte or as operand byte, with no flush between; a step there executes it: an unknown byte faults, HLT's
byte halts, and any other opcode is executed with the operand bytes that follow it. -/
def Obligations.StoredByteIsWhatIsFetched : Prop :=
  ∀ (a b : Byte) (r : Reg) (i : Instr) (s t u : State), Reg.ofIndex a = some r →
    s.pc.toNat ≤ 253 → exec i s = .next t →
    (i = .push a ∧ b = (if r = .sp then s.reg .sp - 1 else s.reg r)) ∨
      (i = .call a ∧ b = BitVec.ofNat 8 (s.pc.toNat + 2)) →
    u.mem = t.mem →
      (u.pc = t.reg .sp → u.fetchOpcode = b) ∧
      (u.pc.toNat + 1 = (t.reg .sp).toNat → u.fetchOperands[0]? = some b) ∧
      (u.pc.toNat + 2 = (t.reg .sp).toNat → u.fetchOperands[1]? = some b) ∧
      (u.status = .running → u.pc = t.reg .sp →
        (lookupOpcode b = none → step u = .next (u.faultedWith .unknownOpcode b.toNat)) ∧
        (b = 0x01 → step u = .next (u.setStatus .halted)) ∧
        (∀ m, lookupOpcode b = some m → u.pc.toNat + m.format.operandBytes ≤ 255 →
          step u = exec (assemble m (u.memRead (u.pc + 1)) (u.memRead (u.pc + 2))) u))
end

