-- ==== Sys2Proof/Laws/State.lean ====
section
/-! SUPPORT. Laws of the state: one lemma per field per update, so that no proof unfolds an update. -/

namespace Sys2Proof.Machine

theorem RegFile.get_set (f : RegFile) (r q : Reg) (v : Byte) :
    (f.set r v).get q = if q = r then v else f.get q := by
  cases r <;> cases q <;> rfl

/-- Two register files that agree on every register are equal. -/
theorem RegFile.ext_get {f g : RegFile} (h : ∀ q, f.get q = g.get q) : f = g := by
  cases f
  cases g
  have h0 := h .r0; have h1 := h .r1; have h2 := h .r2; have h3 := h .r3
  have h4 := h .r4; have h5 := h .r5; have h6 := h .r6; have h7 := h .r7
  simp only [RegFile.get] at h0 h1 h2 h3 h4 h5 h6 h7
  simp only [h0, h1, h2, h3, h4, h5, h6, h7]

/-- The reading of a register after the writing of one. -/
@[simp] theorem State.reg_setReg (s : State) (r q : Reg) (v : Byte) :
    (s.setReg r v).reg q = if q = r then v else s.reg q :=
  RegFile.get_set s.regs r q v

@[simp] theorem State.pc_setReg (s : State) (r : Reg) (v : Byte) : (s.setReg r v).pc = s.pc := rfl
@[simp] theorem State.fl_setReg (s : State) (r : Reg) (v : Byte) : (s.setReg r v).fl = s.fl := rfl
@[simp] theorem State.mem_setReg (s : State) (r : Reg) (v : Byte) :
    (s.setReg r v).mem = s.mem := rfl
@[simp] theorem State.status_setReg (s : State) (r : Reg) (v : Byte) :
    (s.setReg r v).status = s.status := rfl
@[simp] theorem State.output_setReg (s : State) (r : Reg) (v : Byte) :
    (s.setReg r v).output = s.output := rfl

@[simp] theorem State.reg_setPc (s : State) (v : Byte) (q : Reg) :
    (s.setPc v).reg q = s.reg q := rfl
@[simp] theorem State.pc_setPc (s : State) (v : Byte) : (s.setPc v).pc = v := rfl
@[simp] theorem State.fl_setPc (s : State) (v : Byte) : (s.setPc v).fl = s.fl := rfl
@[simp] theorem State.mem_setPc (s : State) (v : Byte) : (s.setPc v).mem = s.mem := rfl
@[simp] theorem State.status_setPc (s : State) (v : Byte) : (s.setPc v).status = s.status := rfl
@[simp] theorem State.output_setPc (s : State) (v : Byte) : (s.setPc v).output = s.output := rfl

@[simp] theorem State.reg_setFl (s : State) (v : Byte) (q : Reg) :
    (s.setFl v).reg q = s.reg q := rfl
@[simp] theorem State.pc_setFl (s : State) (v : Byte) : (s.setFl v).pc = s.pc := rfl
@[simp] theorem State.fl_setFl (s : State) (v : Byte) : (s.setFl v).fl = v := rfl
@[simp] theorem State.mem_setFl (s : State) (v : Byte) : (s.setFl v).mem = s.mem := rfl
@[simp] theorem State.status_setFl (s : State) (v : Byte) : (s.setFl v).status = s.status := rfl
@[simp] theorem State.output_setFl (s : State) (v : Byte) : (s.setFl v).output = s.output := rfl

@[simp] theorem State.reg_setStatus (s : State) (v : Status) (q : Reg) :
    (s.setStatus v).reg q = s.reg q := rfl
@[simp] theorem State.pc_setStatus (s : State) (v : Status) : (s.setStatus v).pc = s.pc := rfl
@[simp] theorem State.fl_setStatus (s : State) (v : Status) : (s.setStatus v).fl = s.fl := rfl
@[simp] theorem State.mem_setStatus (s : State) (v : Status) : (s.setStatus v).mem = s.mem := rfl
@[simp] theorem State.status_setStatus (s : State) (v : Status) : (s.setStatus v).status = v := rfl
@[simp] theorem State.output_setStatus (s : State) (v : Status) :
    (s.setStatus v).output = s.output := rfl

@[simp] theorem State.reg_out (s : State) (v : Byte) (q : Reg) : (s.out v).reg q = s.reg q := rfl
@[simp] theorem State.pc_out (s : State) (v : Byte) : (s.out v).pc = s.pc := rfl
@[simp] theorem State.fl_out (s : State) (v : Byte) : (s.out v).fl = s.fl := rfl
@[simp] theorem State.mem_out (s : State) (v : Byte) : (s.out v).mem = s.mem := rfl
@[simp] theorem State.status_out (s : State) (v : Byte) : (s.out v).status = s.status := rfl
@[simp] theorem State.output_out (s : State) (v : Byte) : (s.out v).output = s.output ++ [v] := rfl

@[simp] theorem State.reg_memWrite (s : State) (a v : Byte) (q : Reg) :
    (s.memWrite a v).reg q = s.reg q := rfl
@[simp] theorem State.pc_memWrite (s : State) (a v : Byte) : (s.memWrite a v).pc = s.pc := rfl
@[simp] theorem State.fl_memWrite (s : State) (a v : Byte) : (s.memWrite a v).fl = s.fl := rfl
@[simp] theorem State.mem_memWrite (s : State) (a v : Byte) :
    (s.memWrite a v).mem = s.mem.write a v := rfl
@[simp] theorem State.status_memWrite (s : State) (a v : Byte) :
    (s.memWrite a v).status = s.status := rfl
@[simp] theorem State.output_memWrite (s : State) (a v : Byte) :
    (s.memWrite a v).output = s.output := rfl

@[simp] theorem State.reg_raise (s : State) (f : Raise) (q : Reg) :
    (s.raise f).reg q = s.reg q := rfl
@[simp] theorem State.pc_raise (s : State) (f : Raise) : (s.raise f).pc = s.pc := rfl
@[simp] theorem State.fl_raise (s : State) (f : Raise) : (s.raise f).fl = s.fl := rfl
@[simp] theorem State.mem_raise (s : State) (f : Raise) : (s.raise f).mem = s.mem := rfl
@[simp] theorem State.status_raise (s : State) (f : Raise) :
    (s.raise f).status = .faulted { cause := f.cause, addr := s.pc, info := f.info } := rfl
@[simp] theorem State.output_raise (s : State) (f : Raise) : (s.raise f).output = s.output := rfl

@[simp] theorem State.memRead_setReg (s : State) (r : Reg) (v : Byte) (b : Byte) :
    (s.setReg r v).memRead b = s.memRead b := rfl
@[simp] theorem State.memRead_setPc (s : State) (v : Byte) (b : Byte) :
    (s.setPc v).memRead b = s.memRead b := rfl
@[simp] theorem State.memRead_setFl (s : State) (v : Byte) (b : Byte) :
    (s.setFl v).memRead b = s.memRead b := rfl
@[simp] theorem State.memRead_setStatus (s : State) (v : Status) (b : Byte) :
    (s.setStatus v).memRead b = s.memRead b := rfl
@[simp] theorem State.memRead_out (s : State) (v : Byte) (b : Byte) :
    (s.out v).memRead b = s.memRead b := rfl
@[simp] theorem State.memRead_raise (s : State) (f : Raise) (b : Byte) :
    (s.raise f).memRead b = s.memRead b := rfl

/-! The stack operations in terms of the plain updates. -/

@[simp] theorem State.predecSp_eq (s : State) : s.predecSp = s.setReg .sp (s.reg .sp - 1) := rfl
@[simp] theorem State.postincSp_eq (s : State) : s.postincSp = s.setReg .sp (s.reg .sp + 1) := rfl
@[simp] theorem State.stackTop_eq (s : State) : s.stackTop = s.memRead (s.reg .sp) := rfl
@[simp] theorem State.storeTop_eq (s : State) (v : Byte) :
    s.storeTop v = s.memWrite (s.reg .sp) v := rfl

/-- Two states that agree on every register and every other field are equal. -/
theorem State.ext_fields {s t : State} (hr : ∀ q, s.reg q = t.reg q) (hp : s.pc = t.pc)
    (hf : s.fl = t.fl) (hm : s.mem = t.mem) (hs : s.status = t.status)
    (ho : s.output = t.output) : s = t := by
  cases s
  cases t
  have := RegFile.ext_get hr
  simp only at this hp hf hm hs ho
  simp only [this, hp, hf, hm, hs, ho]

end Sys2Proof.Machine
end

