-- ==== Sys2Proof/Laws/Memory.lean ====
section
/-! SUPPORT. Laws of memory: what a read gives after a write, for every memory, and that every
operation keeps the canonical form. -/

namespace Sys2Proof.Machine

/-! ### Reading after writing -/

theorem Memory.readNat_erase (m : Memory) (a b : Nat) :
    (m.erase a).readNat b = if b = a then 0x00 else m.readNat b := by
  induction m with
  | nil => simp [Memory.erase, Memory.readNat]
  | cons e rest ih =>
    obtain ⟨k, v⟩ := e
    by_cases hk : k = a
    · subst hk
      by_cases hb : b = k
      · subst hb
        simpa [Memory.erase] using ih
      · simp [Memory.erase, Memory.readNat, ih, hb, Ne.symm hb]
    · by_cases hkb : k = b
      · subst hkb
        simp [Memory.erase, Memory.readNat, hk]
      · simp [Memory.erase, Memory.readNat, hk, hkb, ih]

theorem Memory.readNat_insert {m : Memory} {a : Nat} (b : Nat) (v : Byte)
    (hn : ∀ e ∈ m, e.1 ≠ a) :
    (m.insert a v).readNat b = if b = a then v else m.readNat b := by
  induction m with
  | nil =>
    by_cases hb : b = a
    · simp [Memory.insert, Memory.readNat, hb]
    · simp [Memory.insert, Memory.readNat, hb, Ne.symm hb]
  | cons e rest ih =>
    obtain ⟨k, w⟩ := e
    have hk : k ≠ a := hn (k, w) (by simp)
    have ih' := ih fun e he => hn e (by simp [he])
    by_cases hlt : a < k
    · by_cases hb : b = a
      · simp [Memory.insert, Memory.readNat, hlt, hb]
      · simp [Memory.insert, Memory.readNat, hlt, hb, Ne.symm hb]
    · by_cases hkb : k = b
      · subst hkb
        simp [Memory.insert, Memory.readNat, hlt, hk]
      · simp [Memory.insert, Memory.readNat, hlt, hkb, ih']

theorem Memory.erase_no_entry (m : Memory) (a : Nat) : ∀ e ∈ m.erase a, e.1 ≠ a := by
  induction m with
  | nil => simp [Memory.erase]
  | cons e rest ih =>
    obtain ⟨k, v⟩ := e
    by_cases hk : k = a
    · simpa [Memory.erase, hk] using ih
    · simp only [Memory.erase, hk, if_false, List.mem_cons]
      rintro e (rfl | he)
      · exact hk
      · exact ih e he

/-- What a read gives after a write, at every address and for every memory. -/
theorem Memory.readNat_writeNat (m : Memory) (a b : Nat) (v : Byte) :
    (m.writeNat a v).readNat b = if b = a then v else m.readNat b := by
  unfold Memory.writeNat
  split
  · next hv => rw [Memory.readNat_erase, hv]
  · rw [Memory.readNat_insert b v (Memory.erase_no_entry m a), Memory.readNat_erase]
    split <;> rfl

/-- `MemRead` after `MemWrite` (R30). -/
theorem Memory.read_write (m : Memory) (a b v : Byte) :
    (m.write a v).read b = if b = a then v else m.read b := by
  unfold Memory.read Memory.write
  rw [Memory.readNat_writeNat]
  simp only [BitVec.toNat_inj]

/-- `MemRead` after `MemWrite`, in the state. -/
@[simp] theorem State.memRead_memWrite (s : State) (a v b : Byte) :
    (s.memWrite a v).memRead b = if b = a then v else s.memRead b :=
  Memory.read_write s.mem a b v

/-- What a read gives after bytes were put from an address up. -/
theorem Memory.readNat_putBytes (bytes : List Byte) (m : Memory) (a b : Nat) :
    (m.putBytes a bytes).readNat b =
      if a ≤ b ∧ b ≤ topAddress ∧ b < a + bytes.length then bytes.getD (b - a) 0x00
      else m.readNat b := by
  induction bytes generalizing m a with
  | nil => simp [Memory.putBytes]; omega
  | cons v rest ih =>
    unfold Memory.putBytes
    split
    · next ha =>
      rw [ih, Memory.readNat_writeNat]
      by_cases hb : b = a
      · subst hb
        simp [ha]
      · by_cases hc : a ≤ b ∧ b ≤ topAddress ∧ b < a + (rest.length + 1)
        · have h1 : a + 1 ≤ b ∧ b ≤ topAddress ∧ b < a + 1 + rest.length := by omega
          have h2 : b - a = (b - (a + 1)) + 1 := by omega
          simp only [List.length_cons]
          rw [if_pos h1, if_pos hc, h2, List.getD_cons_succ]
        · have h1 : ¬ (a + 1 ≤ b ∧ b ≤ topAddress ∧ b < a + 1 + rest.length) := by omega
          simp only [List.length_cons]
          rw [if_neg h1, if_neg hc, if_neg hb]
    · next ha =>
      rw [if_neg (by omega)]

/-! ### The canonical form -/

theorem Memory.wfFrom_mono {lo lo' : Nat} (h : lo' ≤ lo) :
    ∀ {m : Memory}, Memory.wfFrom lo m = true → Memory.wfFrom lo' m = true
  | [], _ => rfl
  | (k, v) :: rest, hm => by
    simp only [Memory.wfFrom, Bool.and_eq_true, decide_eq_true_eq] at hm ⊢
    exact ⟨⟨⟨by omega, hm.1.1.2⟩, hm.1.2⟩, hm.2⟩

theorem Memory.wfFrom_erase {lo : Nat} {m : Memory} (a : Nat) (h : Memory.wfFrom lo m = true) :
    Memory.wfFrom lo (m.erase a) = true := by
  induction m generalizing lo with
  | nil => rfl
  | cons e rest ih =>
    obtain ⟨k, v⟩ := e
    simp only [Memory.wfFrom, Bool.and_eq_true, decide_eq_true_eq] at h
    by_cases hk : k = a
    · simp only [Memory.erase, hk, if_true]
      exact ih (Memory.wfFrom_mono (by omega) h.2)
    · simp only [Memory.erase, hk, if_false, Memory.wfFrom, Bool.and_eq_true, decide_eq_true_eq]
      exact ⟨h.1, ih h.2⟩

theorem Memory.wfFrom_insert {lo : Nat} {m : Memory} {a : Nat} {v : Byte}
    (h : Memory.wfFrom lo m = true) (hlo : lo ≤ a) (ha : a ≤ topAddress) (hv : v ≠ 0x00)
    (hn : ∀ e ∈ m, e.1 ≠ a) : Memory.wfFrom lo (m.insert a v) = true := by
  induction m generalizing lo with
  | nil =>
    simp only [Memory.insert, Memory.wfFrom, Bool.and_eq_true, decide_eq_true_eq]
    exact ⟨⟨⟨hlo, ha⟩, hv⟩, trivial⟩
  | cons e rest ih =>
    obtain ⟨k, w⟩ := e
    have hk : k ≠ a := hn (k, w) (by simp)
    simp only [Memory.wfFrom, Bool.and_eq_true, decide_eq_true_eq] at h
    by_cases hlt : a < k
    · simp only [Memory.insert, hlt, if_true, Memory.wfFrom, Bool.and_eq_true, decide_eq_true_eq]
      exact ⟨⟨⟨hlo, ha⟩, hv⟩, ⟨⟨by omega, h.1.1.2⟩, h.1.2⟩, h.2⟩
    · simp only [Memory.insert, hlt, if_false, Memory.wfFrom, Bool.and_eq_true, decide_eq_true_eq]
      exact ⟨h.1, ih h.2 (by omega) (fun e he => hn e (by simp [he]))⟩

/-- Storing a byte keeps the canonical form. -/
theorem Memory.wf_writeNat {m : Memory} {a : Nat} (v : Byte) (h : m.wf = true)
    (ha : a ≤ topAddress) : (m.writeNat a v).wf = true := by
  unfold Memory.writeNat
  split
  · exact Memory.wfFrom_erase a h
  · next hv =>
    exact Memory.wfFrom_insert (Memory.wfFrom_erase a h) (Nat.zero_le a) ha hv
      (Memory.erase_no_entry m a)

/-- `MemWrite` keeps the canonical form. -/
theorem Memory.wf_write {m : Memory} (a v : Byte) (h : m.wf = true) : (m.write a v).wf = true :=
  Memory.wf_writeNat v h (by have := a.isLt; unfold topAddress; omega)

/-- Putting bytes keeps the canonical form. -/
theorem Memory.wf_putBytes (bytes : List Byte) {m : Memory} (a : Nat) (h : m.wf = true) :
    (m.putBytes a bytes).wf = true := by
  induction bytes generalizing m a with
  | nil => exact h
  | cons v rest ih =>
    unfold Memory.putBytes
    split
    · next ha => exact ih (a + 1) (Memory.wf_writeNat v h ha)
    · exact h

/-- The memory at reset is in canonical form. -/
theorem State.reset_mem_wf : State.reset.mem.wf = true := rfl

/-! ### Fetching bytes -/

/-- What a fetch of up to two bytes gives: all of them, or those up to the top of memory. -/
theorem Memory.bytesFrom_two (m : Memory) (a : Nat) :
    m.bytesFrom a 2 =
      if a + 1 ≤ topAddress then [m.readNat a, m.readNat (a + 1)]
      else if a ≤ topAddress then [m.readNat a] else [] := by
  simp only [Memory.bytesFrom]
  split_ifs <;> first | rfl | omega

end Sys2Proof.Machine
end

