-- ==== Sys2Proof/Laws/Operands.lean ====
section
/-! SUPPORT. One law per check and shared operation, saying everything it can answer. -/

namespace Sys2Proof.Machine

/-! ### Register operands (R53, R74) -/

theorem Reg.ofIndex_index (r : Reg) : Reg.ofIndex r.index = some r := by cases r <;> rfl

theorem Reg.ofIndex_eq_some {b : Byte} {r : Reg} : Reg.ofIndex b = some r ↔ b = r.index := by
  revert b r; intro b r; cases r <;> revert b <;> decide

theorem Reg.ofIndex_eq_none {b : Byte} : Reg.ofIndex b = none ↔ 7 < b.toNat := by
  revert b; decide

theorem Reg.exists_ofIndex {b : Byte} (h : b.toNat ≤ 7) : ∃ r, Reg.ofIndex b = some r := by
  cases hb : Reg.ofIndex b with
  | some r => exact ⟨r, rfl⟩
  | none => have := Reg.ofIndex_eq_none.1 hb; omega

/-- A register operand answers the register it names, or the fault with the byte as `info`. -/
theorem regOperand_cases (b : Byte) :
    (∃ r, Reg.ofIndex b = some r ∧ b.toNat ≤ 7 ∧ regOperand b = .ok r) ∨
      (7 < b.toNat ∧
        regOperand b = .error { cause := .registerIndexOutOfRange, info := b.toNat }) := by
  unfold regOperand
  cases hb : Reg.ofIndex b with
  | some r =>
    refine .inl ⟨r, rfl, ?_, rfl⟩
    by_contra h
    rw [Reg.ofIndex_eq_none.2 (by omega)] at hb
    exact absurd hb (by simp)
  | none => exact .inr ⟨Reg.ofIndex_eq_none.1 hb, rfl⟩

theorem regOperand_ok {b : Byte} {r : Reg} (h : Reg.ofIndex b = some r) : regOperand b = .ok r := by
  unfold regOperand; rw [h]

theorem regOperand_error {b : Byte} (h : 7 < b.toNat) :
    regOperand b = .error { cause := .registerIndexOutOfRange, info := b.toNat } := by
  unfold regOperand; rw [Reg.ofIndex_eq_none.2 h]

/-! ### Addresses formed from PC (R73, R77) -/

theorem State.operandsInRange_ok {s : State} {n : Nat} (h : s.pc.toNat + n ≤ 255) (hn : n ≤ 2) :
    s.operandsInRange n = .ok () := by
  unfold State.operandsInRange
  rw [if_neg (by unfold topAddress; omega), if_neg (by unfold topAddress; omega)]

/-- The operand address check reports the first address out of range, which is 256. -/
theorem State.operandsInRange_error {s : State} {n : Nat} (h : 255 < s.pc.toNat + n) (hn : n ≤ 2) :
    s.operandsInRange n = .error { cause := .addressOutOfRange, info := 256 } := by
  have := s.pc.isLt
  unfold State.operandsInRange
  by_cases hp : s.pc.toNat = 255
  · rw [if_pos (by unfold topAddress; omega), hp]
  · have hp' : s.pc.toNat = 254 := by omega
    rw [if_neg (by unfold topAddress; omega), if_pos (by unfold topAddress; omega), hp']

theorem State.nextAddress_ok {s : State} {n : Nat} (h : s.pc.toNat + n ≤ 255) :
    s.nextAddress n = .ok (BitVec.ofNat 8 (s.pc.toNat + n)) := by
  unfold State.nextAddress
  rw [if_neg (by unfold topAddress; omega)]

theorem State.nextAddress_error {s : State} {n : Nat} (h : 255 < s.pc.toNat + n) :
    s.nextAddress n = .error { cause := .addressOutOfRange, info := s.pc.toNat + n } := by
  unfold State.nextAddress
  rw [if_pos (by unfold topAddress; omega)]

/-! ### The operand forms (R50) -/

theorem State.operandR_ok {s : State} {a : Byte} {r : Reg} (hp : s.pc.toNat + 1 ≤ 255)
    (ha : Reg.ofIndex a = some r) : s.operandR a = .ok r := by
  unfold State.operandR
  rw [State.operandsInRange_ok hp (by omega), regOperand_ok ha]
  rfl

/-- Everything format F1R's checks can answer. -/
theorem State.operandR_cases (s : State) (a : Byte) :
    (∃ r, Reg.ofIndex a = some r ∧ s.pc.toNat + 1 ≤ 255 ∧ s.operandR a = .ok r) ∨
      (255 < s.pc.toNat + 1 ∧
        s.operandR a = .error { cause := .addressOutOfRange, info := 256 }) ∨
      (s.pc.toNat + 1 ≤ 255 ∧ 7 < a.toNat ∧
        s.operandR a = .error { cause := .registerIndexOutOfRange, info := a.toNat }) := by
  unfold State.operandR
  by_cases hp : s.pc.toNat + 1 ≤ 255
  · rw [State.operandsInRange_ok hp (by omega)]
    rcases regOperand_cases a with ⟨r, hr, -, h⟩ | ⟨ha, h⟩
    · exact .inl ⟨r, hr, hp, by rw [h]; rfl⟩
    · exact .inr (.inr ⟨hp, ha, by rw [h]; rfl⟩)
  · rw [State.operandsInRange_error (by omega) (by omega)]
    exact .inr (.inl ⟨by omega, rfl⟩)

theorem State.operandsRI_ok {s : State} {a : Byte} {r : Reg} (hp : s.pc.toNat + 2 ≤ 255)
    (ha : Reg.ofIndex a = some r) : s.operandsRI a = .ok r := by
  unfold State.operandsRI
  rw [State.operandsInRange_ok hp (by omega), regOperand_ok ha]
  rfl

/-- Everything format F2RI's checks can answer. -/
theorem State.operandsRI_cases (s : State) (a : Byte) :
    (∃ r, Reg.ofIndex a = some r ∧ s.pc.toNat + 2 ≤ 255 ∧ s.operandsRI a = .ok r) ∨
      (255 < s.pc.toNat + 2 ∧
        s.operandsRI a = .error { cause := .addressOutOfRange, info := 256 }) ∨
      (s.pc.toNat + 2 ≤ 255 ∧ 7 < a.toNat ∧
        s.operandsRI a = .error { cause := .registerIndexOutOfRange, info := a.toNat }) := by
  unfold State.operandsRI
  by_cases hp : s.pc.toNat + 2 ≤ 255
  · rw [State.operandsInRange_ok hp (by omega)]
    rcases regOperand_cases a with ⟨r, hr, -, h⟩ | ⟨ha, h⟩
    · exact .inl ⟨r, hr, hp, by rw [h]; rfl⟩
    · exact .inr (.inr ⟨hp, ha, by rw [h]; rfl⟩)
  · rw [State.operandsInRange_error (by omega) (by omega)]
    exact .inr (.inl ⟨by omega, rfl⟩)

theorem State.operandsRR_ok {s : State} {a b : Byte} {ra rb : Reg} (hp : s.pc.toNat + 2 ≤ 255)
    (ha : Reg.ofIndex a = some ra) (hb : Reg.ofIndex b = some rb) :
    s.operandsRR a b = .ok (ra, rb) := by
  unfold State.operandsRR
  rw [State.operandsInRange_ok hp (by omega), regOperand_ok ha, regOperand_ok hb]
  rfl

/-- Everything format F2RR's checks can answer. -/
theorem State.operandsRR_cases (s : State) (a b : Byte) :
    (∃ ra rb, Reg.ofIndex a = some ra ∧ Reg.ofIndex b = some rb ∧ s.pc.toNat + 2 ≤ 255 ∧
        s.operandsRR a b = .ok (ra, rb)) ∨
      (255 < s.pc.toNat + 2 ∧
        s.operandsRR a b = .error { cause := .addressOutOfRange, info := 256 }) ∨
      (s.pc.toNat + 2 ≤ 255 ∧ 7 < a.toNat ∧
        s.operandsRR a b = .error { cause := .registerIndexOutOfRange, info := a.toNat }) ∨
      (s.pc.toNat + 2 ≤ 255 ∧ a.toNat ≤ 7 ∧ 7 < b.toNat ∧
        s.operandsRR a b = .error { cause := .registerIndexOutOfRange, info := b.toNat }) := by
  unfold State.operandsRR
  by_cases hp : s.pc.toNat + 2 ≤ 255
  · rw [State.operandsInRange_ok hp (by omega)]
    rcases regOperand_cases a with ⟨ra, hra, ha, h⟩ | ⟨ha, h⟩
    · rcases regOperand_cases b with ⟨rb, hrb, hb, h'⟩ | ⟨hb, h'⟩
      · exact .inl ⟨ra, rb, hra, hrb, hp, by rw [h, h']; rfl⟩
      · exact .inr (.inr (.inr ⟨hp, ha, hb, by rw [h, h']; rfl⟩))
    · exact .inr (.inr (.inl ⟨hp, ha, by rw [h]; rfl⟩))
  · rw [State.operandsInRange_error (by omega) (by omega)]
    exact .inr (.inl ⟨by omega, rfl⟩)

/-! ### Commit (R76, R124) -/

@[simp] theorem State.commit_ok (s t : State) : s.commit (.ok t) = .next t := rfl

@[simp] theorem State.commit_error (s : State) (f : Raise) :
    s.commit (.error f) = .next (s.raise f) := rfl

/-- A commit always answers a next state: the effects, or the fault raised in the state before. -/
theorem State.commit_eq_next {s t : State} {c : Check State} (h : s.commit c = .next t) :
    c = .ok t ∨ ∃ f, c = .error f ∧ t = s.raise f := by
  cases c with
  | ok u => left; simpa using h
  | error f => right; exact ⟨f, rfl, by simpa using h.symm⟩

end Sys2Proof.Machine
end

