-- ==== Sys2Proof/Laws/Exec.lean ====
section
/-! SUPPORT. One law per shared operation that a meaning is built of: everything it can answer. -/

namespace Sys2Proof.Machine

/-- The checked advance answers the next address, or the fault with the sum as `info`. -/
theorem State.nextAddress_cases (s : State) (n : Nat) :
    (s.pc.toNat + n ≤ 255 ∧ s.nextAddress n = .ok (BitVec.ofNat 8 (s.pc.toNat + n))) ∨
      (255 < s.pc.toNat + n ∧
        s.nextAddress n = .error { cause := .addressOutOfRange, info := s.pc.toNat + n }) := by
  by_cases h : s.pc.toNat + n ≤ 255
  · exact .inl ⟨h, State.nextAddress_ok h⟩
  · exact .inr ⟨by omega, State.nextAddress_error (by omega)⟩

/-- Everything a sequential two-byte instruction with a register operand can answer, `f` being its
effects. -/
theorem State.operandR_next_cases (s : State) (a : Byte) (f : Reg → Byte → Check State) :
    (∃ r, Reg.ofIndex a = some r ∧ s.pc.toNat ≤ 253 ∧
        (do let r ← s.operandR a; let next ← s.nextAddress 2; f r next) =
          f r (BitVec.ofNat 8 (s.pc.toNat + 2))) ∨
      (s.pc.toNat = 255 ∧
        (do let r ← s.operandR a; let next ← s.nextAddress 2; f r next) =
          .error { cause := .addressOutOfRange, info := 256 }) ∨
      (s.pc.toNat ≤ 254 ∧ 7 < a.toNat ∧
        (do let r ← s.operandR a; let next ← s.nextAddress 2; f r next) =
          .error { cause := .registerIndexOutOfRange, info := a.toNat }) ∨
      (s.pc.toNat = 254 ∧ a.toNat ≤ 7 ∧
        (do let r ← s.operandR a; let next ← s.nextAddress 2; f r next) =
          .error { cause := .addressOutOfRange, info := 256 }) := by
  have hlt := s.pc.isLt
  rcases State.operandR_cases s a with ⟨r, ha, hp, h⟩ | ⟨hp, h⟩ | ⟨hp, ha, h⟩
  · rcases State.nextAddress_cases s 2 with ⟨hp', h'⟩ | ⟨hp', h'⟩
    · exact .inl ⟨r, ha, by omega, by rw [h, h']; rfl⟩
    · have h254 : s.pc.toNat = 254 := by omega
      refine .inr (.inr (.inr ⟨h254, ?_, by rw [h, h', h254]; rfl⟩))
      by_contra hc
      rw [Reg.ofIndex_eq_none.2 (by omega)] at ha
      exact absurd ha (by simp)
  · exact .inr (.inl ⟨by omega, by rw [h]; rfl⟩)
  · exact .inr (.inr (.inl ⟨by omega, ha, by rw [h]; rfl⟩))

/-- The same for the three-byte instruction with a register and an immediate, LDI. -/
theorem State.operandsRI_next_cases (s : State) (a : Byte) (f : Reg → Byte → Check State) :
    (∃ r, Reg.ofIndex a = some r ∧ s.pc.toNat ≤ 252 ∧
        (do let r ← s.operandsRI a; let next ← s.nextAddress 3; f r next) =
          f r (BitVec.ofNat 8 (s.pc.toNat + 3))) ∨
      (254 ≤ s.pc.toNat ∧
        (do let r ← s.operandsRI a; let next ← s.nextAddress 3; f r next) =
          .error { cause := .addressOutOfRange, info := 256 }) ∨
      (s.pc.toNat ≤ 253 ∧ 7 < a.toNat ∧
        (do let r ← s.operandsRI a; let next ← s.nextAddress 3; f r next) =
          .error { cause := .registerIndexOutOfRange, info := a.toNat }) ∨
      (s.pc.toNat = 253 ∧ a.toNat ≤ 7 ∧
        (do let r ← s.operandsRI a; let next ← s.nextAddress 3; f r next) =
          .error { cause := .addressOutOfRange, info := 256 }) := by
  rcases State.operandsRI_cases s a with ⟨r, ha, hp, h⟩ | ⟨hp, h⟩ | ⟨hp, ha, h⟩
  · rcases State.nextAddress_cases s 3 with ⟨hp', h'⟩ | ⟨hp', h'⟩
    · exact .inl ⟨r, ha, by omega, by rw [h, h']; rfl⟩
    · have h253 : s.pc.toNat = 253 := by omega
      refine .inr (.inr (.inr ⟨h253, ?_, by rw [h, h', h253]; rfl⟩))
      by_contra hc
      rw [Reg.ofIndex_eq_none.2 (by omega)] at ha
      exact absurd ha (by simp)
  · exact .inr (.inl ⟨by omega, by rw [h]; rfl⟩)
  · exact .inr (.inr (.inl ⟨by omega, ha, by rw [h]; rfl⟩))

/-- The ALU path when every check passes: the ALU's answer written, PC advanced by 3. -/
theorem State.aluPath_ok {s : State} {a b : Byte} {ra rb : Reg} (sel : Mnemonic)
    (ha : Reg.ofIndex a = some ra) (hb : Reg.ofIndex b = some rb) (hp : s.pc.toNat ≤ 252) :
    s.aluPath sel a b = (do
      let t ← s.aluWrite sel ra (alu sel (s.reg ra) (s.reg rb))
      .ok (t.setPc (BitVec.ofNat 8 (s.pc.toNat + 3)))) := by
  unfold State.aluPath
  rw [State.operandsRR_ok (by omega) ha hb, State.nextAddress_ok (by omega)]
  rfl

/-- Everything the ALU path can answer before the ALU is asked. -/
theorem State.aluPath_cases (s : State) (sel : Mnemonic) (a b : Byte) :
    (∃ ra rb, Reg.ofIndex a = some ra ∧ Reg.ofIndex b = some rb ∧ s.pc.toNat ≤ 252 ∧
        s.aluPath sel a b = (do
          let t ← s.aluWrite sel ra (alu sel (s.reg ra) (s.reg rb))
          .ok (t.setPc (BitVec.ofNat 8 (s.pc.toNat + 3))))) ∨
      (254 ≤ s.pc.toNat ∧
        s.aluPath sel a b = .error { cause := .addressOutOfRange, info := 256 }) ∨
      (s.pc.toNat ≤ 253 ∧ 7 < a.toNat ∧
        s.aluPath sel a b = .error { cause := .registerIndexOutOfRange, info := a.toNat }) ∨
      (s.pc.toNat ≤ 253 ∧ a.toNat ≤ 7 ∧ 7 < b.toNat ∧
        s.aluPath sel a b = .error { cause := .registerIndexOutOfRange, info := b.toNat }) ∨
      (s.pc.toNat = 253 ∧ a.toNat ≤ 7 ∧ b.toNat ≤ 7 ∧
        s.aluPath sel a b = .error { cause := .addressOutOfRange, info := 256 }) := by
  rcases State.operandsRR_cases s a b with ⟨ra, rb, ha, hb, hp, h⟩ | ⟨hp, h⟩ | ⟨hp, ha, h⟩ |
    ⟨hp, ha, hb, h⟩
  · rcases State.nextAddress_cases s 3 with ⟨hp', -⟩ | ⟨hp', h'⟩
    · exact .inl ⟨ra, rb, ha, hb, by omega, State.aluPath_ok sel ha hb (by omega)⟩
    · have h253 : s.pc.toNat = 253 := by omega
      refine .inr (.inr (.inr (.inr ⟨h253, ?_, ?_, ?_⟩)))
      · by_contra hc
        rw [Reg.ofIndex_eq_none.2 (by omega)] at ha
        exact absurd ha (by simp)
      · by_contra hc
        rw [Reg.ofIndex_eq_none.2 (by omega)] at hb
        exact absurd hb (by simp)
      · unfold State.aluPath
        rw [h, h', h253]
        rfl
  · refine .inr (.inl ⟨by omega, ?_⟩)
    unfold State.aluPath
    rw [h]
    rfl
  · refine .inr (.inr (.inl ⟨by omega, ha, ?_⟩))
    unfold State.aluPath
    rw [h]
    rfl
  · refine .inr (.inr (.inr (.inl ⟨by omega, ha, hb, ?_⟩)))
    unfold State.aluPath
    rw [h]
    rfl

/-- Everything a conditional branch can answer. -/
theorem State.branch_cases (s : State) (taken : Bool) (a : Byte) :
    (∃ r, Reg.ofIndex a = some r ∧ s.pc.toNat ≤ 254 ∧ taken = true ∧
        s.branch taken a = .ok (s.setPc (s.reg r))) ∨
      (a.toNat ≤ 7 ∧ s.pc.toNat ≤ 253 ∧ taken = false ∧
        s.branch taken a = .ok (s.setPc (BitVec.ofNat 8 (s.pc.toNat + 2)))) ∨
      (s.pc.toNat = 255 ∧
        s.branch taken a = .error { cause := .addressOutOfRange, info := 256 }) ∨
      (s.pc.toNat ≤ 254 ∧ 7 < a.toNat ∧
        s.branch taken a = .error { cause := .registerIndexOutOfRange, info := a.toNat }) ∨
      (s.pc.toNat = 254 ∧ a.toNat ≤ 7 ∧ taken = false ∧
        s.branch taken a = .error { cause := .addressOutOfRange, info := 256 }) := by
  have hlt := s.pc.isLt
  unfold State.branch
  rcases State.operandR_cases s a with ⟨r, ha, hp, h⟩ | ⟨hp, h⟩ | ⟨hp, ha, h⟩
  · have ha7 : a.toNat ≤ 7 := by
      by_contra hc
      rw [Reg.ofIndex_eq_none.2 (by omega)] at ha
      exact absurd ha (by simp)
    rw [h]
    cases taken with
    | true => exact .inl ⟨r, ha, by omega, rfl, rfl⟩
    | false =>
      rcases State.nextAddress_cases s 2 with ⟨hp', h'⟩ | ⟨hp', h'⟩
      · exact .inr (.inl ⟨ha7, by omega, rfl, by simp only [bind, Except.bind]; rw [h']; rfl⟩)
      · have h254 : s.pc.toNat = 254 := by omega
        refine .inr (.inr (.inr (.inr ⟨h254, ha7, rfl, ?_⟩)))
        simp only [bind, Except.bind]
        rw [h', h254]
        rfl
  · exact .inr (.inr (.inl ⟨by omega, by rw [h]; rfl⟩))
  · exact .inr (.inr (.inr (.inl ⟨by omega, ha, by rw [h]; rfl⟩)))

end Sys2Proof.Machine
end

