-- ==== Sys2Proof/Laws/Instr.lean ====
section
/-! SUPPORT. One inversion law per instruction: when `exec` answers `t`, either every check passed and
`t` is the state its rule gives, or `t` is one of its faults. -/

namespace Sys2Proof.Machine

/-- `t` is `s` with a fault of an operand or a formed address raised: the faults of the meanings. -/
def RaisedByOperands (s t : State) : Prop :=
  t = s.raise { cause := .addressOutOfRange, info := 256 } ∨
    ∃ b : Byte, 7 < b.toNat ∧
      t = s.raise { cause := .registerIndexOutOfRange, info := b.toNat }

theorem next_inj {s t : State} (h : (Host.Outcome.next s : Outcome) = .next t) : t = s := by
  cases h; rfl

theorem exec_prn_inv {a : Byte} {s t : State} (h : exec (.prn a) s = .next t) :
    (∃ r, Reg.ofIndex a = some r ∧ s.pc.toNat ≤ 253 ∧
      t = (s.out (s.reg r)).setPc (BitVec.ofNat 8 (s.pc.toNat + 2))) ∨
      RaisedByOperands s t := by
  rcases s.operandR_next_cases a (fun r next => .ok ((s.out (s.reg r)).setPc next)) with
    ⟨r, ha, hp, e⟩ | ⟨hp, e⟩ | ⟨hp, ha, e⟩ | ⟨hp, ha, e⟩
  · exact .inl ⟨r, ha, hp, next_inj ((congrArg s.commit e).symm.trans h)⟩
  · exact .inr (.inl (next_inj ((congrArg s.commit e).symm.trans h)))
  · exact .inr (.inr ⟨a, ha, next_inj ((congrArg s.commit e).symm.trans h)⟩)
  · exact .inr (.inl (next_inj ((congrArg s.commit e).symm.trans h)))

theorem exec_push_inv {a : Byte} {s t : State} (h : exec (.push a) s = .next t) :
    (∃ r, Reg.ofIndex a = some r ∧ s.pc.toNat ≤ 253 ∧
      t = (s.predecSp.storeTop (s.predecSp.reg r)).setPc (BitVec.ofNat 8 (s.pc.toNat + 2))) ∨
      RaisedByOperands s t := by
  rcases s.operandR_next_cases a
      (fun r next => .ok ((s.predecSp.storeTop (s.predecSp.reg r)).setPc next)) with
    ⟨r, ha, hp, e⟩ | ⟨hp, e⟩ | ⟨hp, ha, e⟩ | ⟨hp, ha, e⟩
  · exact .inl ⟨r, ha, hp, next_inj ((congrArg s.commit e).symm.trans h)⟩
  · exact .inr (.inl (next_inj ((congrArg s.commit e).symm.trans h)))
  · exact .inr (.inr ⟨a, ha, next_inj ((congrArg s.commit e).symm.trans h)⟩)
  · exact .inr (.inl (next_inj ((congrArg s.commit e).symm.trans h)))

theorem exec_pop_inv {a : Byte} {s t : State} (h : exec (.pop a) s = .next t) :
    (∃ r, Reg.ofIndex a = some r ∧ s.pc.toNat ≤ 253 ∧
      t = (s.setReg r s.stackTop).postincSp.setPc (BitVec.ofNat 8 (s.pc.toNat + 2))) ∨
      RaisedByOperands s t := by
  rcases s.operandR_next_cases a
      (fun r next => .ok ((s.setReg r s.stackTop).postincSp.setPc next)) with
    ⟨r, ha, hp, e⟩ | ⟨hp, e⟩ | ⟨hp, ha, e⟩ | ⟨hp, ha, e⟩
  · exact .inl ⟨r, ha, hp, next_inj ((congrArg s.commit e).symm.trans h)⟩
  · exact .inr (.inl (next_inj ((congrArg s.commit e).symm.trans h)))
  · exact .inr (.inr ⟨a, ha, next_inj ((congrArg s.commit e).symm.trans h)⟩)
  · exact .inr (.inl (next_inj ((congrArg s.commit e).symm.trans h)))

theorem exec_call_inv {a : Byte} {s t : State} (h : exec (.call a) s = .next t) :
    (∃ r, Reg.ofIndex a = some r ∧ s.pc.toNat ≤ 253 ∧
      t = (s.predecSp.storeTop (BitVec.ofNat 8 (s.pc.toNat + 2))).setPc (s.predecSp.reg r)) ∨
      RaisedByOperands s t := by
  rcases s.operandR_next_cases a
      (fun r next => .ok ((s.predecSp.storeTop next).setPc (s.predecSp.reg r))) with
    ⟨r, ha, hp, e⟩ | ⟨hp, e⟩ | ⟨hp, ha, e⟩ | ⟨hp, ha, e⟩
  · exact .inl ⟨r, ha, hp, next_inj ((congrArg s.commit e).symm.trans h)⟩
  · exact .inr (.inl (next_inj ((congrArg s.commit e).symm.trans h)))
  · exact .inr (.inr ⟨a, ha, next_inj ((congrArg s.commit e).symm.trans h)⟩)
  · exact .inr (.inl (next_inj ((congrArg s.commit e).symm.trans h)))

theorem exec_ldi_inv {a imm : Byte} {s t : State} (h : exec (.ldi a imm) s = .next t) :
    (∃ r, Reg.ofIndex a = some r ∧ s.pc.toNat ≤ 252 ∧
      t = (s.setReg r imm).setPc (BitVec.ofNat 8 (s.pc.toNat + 3))) ∨
      RaisedByOperands s t := by
  rcases s.operandsRI_next_cases a (fun r next => .ok ((s.setReg r imm).setPc next)) with
    ⟨r, ha, hp, e⟩ | ⟨hp, e⟩ | ⟨hp, ha, e⟩ | ⟨hp, ha, e⟩
  · exact .inl ⟨r, ha, hp, next_inj ((congrArg s.commit e).symm.trans h)⟩
  · exact .inr (.inl (next_inj ((congrArg s.commit e).symm.trans h)))
  · exact .inr (.inr ⟨a, ha, next_inj ((congrArg s.commit e).symm.trans h)⟩)
  · exact .inr (.inl (next_inj ((congrArg s.commit e).symm.trans h)))

theorem exec_add_inv {a b : Byte} {s t : State} (h : exec (.add a b) s = .next t) :
    (∃ ra rb, Reg.ofIndex a = some ra ∧ Reg.ofIndex b = some rb ∧ s.pc.toNat ≤ 252 ∧
      t = (s.setReg ra
        (BitVec.ofNat 8 (((s.reg ra).toNat + (s.reg rb).toNat) % 256))).setPc
        (BitVec.ofNat 8 (s.pc.toNat + 3))) ∨
      RaisedByOperands s t := by
  rcases s.aluPath_cases .add a b with
    ⟨ra, rb, ha, hb, hp, e⟩ | ⟨hp, e⟩ | ⟨hp, ha, e⟩ | ⟨hp, ha, hb, e⟩ | ⟨hp, ha, hb, e⟩
  · exact .inl ⟨ra, rb, ha, hb, hp, next_inj ((congrArg s.commit e).symm.trans h)⟩
  · exact .inr (.inl (next_inj ((congrArg s.commit e).symm.trans h)))
  · exact .inr (.inr ⟨a, ha, next_inj ((congrArg s.commit e).symm.trans h)⟩)
  · exact .inr (.inr ⟨b, hb, next_inj ((congrArg s.commit e).symm.trans h)⟩)
  · exact .inr (.inl (next_inj ((congrArg s.commit e).symm.trans h)))

theorem exec_mul_inv {a b : Byte} {s t : State} (h : exec (.mul a b) s = .next t) :
    (∃ ra rb, Reg.ofIndex a = some ra ∧ Reg.ofIndex b = some rb ∧ s.pc.toNat ≤ 252 ∧
      t = (s.setReg ra
        (BitVec.ofNat 8 (((s.reg ra).toNat * (s.reg rb).toNat) % 256))).setPc
        (BitVec.ofNat 8 (s.pc.toNat + 3))) ∨
      RaisedByOperands s t := by
  rcases s.aluPath_cases .mul a b with
    ⟨ra, rb, ha, hb, hp, e⟩ | ⟨hp, e⟩ | ⟨hp, ha, e⟩ | ⟨hp, ha, hb, e⟩ | ⟨hp, ha, hb, e⟩
  · exact .inl ⟨ra, rb, ha, hb, hp, next_inj ((congrArg s.commit e).symm.trans h)⟩
  · exact .inr (.inl (next_inj ((congrArg s.commit e).symm.trans h)))
  · exact .inr (.inr ⟨a, ha, next_inj ((congrArg s.commit e).symm.trans h)⟩)
  · exact .inr (.inr ⟨b, hb, next_inj ((congrArg s.commit e).symm.trans h)⟩)
  · exact .inr (.inl (next_inj ((congrArg s.commit e).symm.trans h)))

theorem exec_cmp_inv {a b : Byte} {s t : State} (h : exec (.cmp a b) s = .next t) :
    (∃ ra rb, Reg.ofIndex a = some ra ∧ Reg.ofIndex b = some rb ∧ s.pc.toNat ≤ 252 ∧
      t = (s.setFl (compareFlags (s.reg ra) (s.reg rb))).setPc
        (BitVec.ofNat 8 (s.pc.toNat + 3))) ∨
      RaisedByOperands s t := by
  rcases s.aluPath_cases .cmp a b with
    ⟨ra, rb, ha, hb, hp, e⟩ | ⟨hp, e⟩ | ⟨hp, ha, e⟩ | ⟨hp, ha, hb, e⟩ | ⟨hp, ha, hb, e⟩
  · exact .inl ⟨ra, rb, ha, hb, hp, next_inj ((congrArg s.commit e).symm.trans h)⟩
  · exact .inr (.inl (next_inj ((congrArg s.commit e).symm.trans h)))
  · exact .inr (.inr ⟨a, ha, next_inj ((congrArg s.commit e).symm.trans h)⟩)
  · exact .inr (.inr ⟨b, hb, next_inj ((congrArg s.commit e).symm.trans h)⟩)
  · exact .inr (.inl (next_inj ((congrArg s.commit e).symm.trans h)))

theorem exec_jmp_inv {a : Byte} {s t : State} (h : exec (.jmp a) s = .next t) :
    (∃ r, Reg.ofIndex a = some r ∧ s.pc.toNat ≤ 254 ∧ t = s.setPc (s.reg r)) ∨
      RaisedByOperands s t := by
  have hb : ∀ {c : Check Reg}, s.operandR a = c →
      s.commit (c.bind fun r => .ok (s.setPc (s.reg r))) = .next t := by
    rintro _ rfl
    exact h
  rcases s.operandR_cases a with ⟨r, ha, hp, e⟩ | ⟨hp, e⟩ | ⟨hp, ha, e⟩
  · exact .inl ⟨r, ha, by omega, next_inj (hb e)⟩
  · exact .inr (.inl (next_inj (hb e)))
  · exact .inr (.inr ⟨a, ha, next_inj (hb e)⟩)

theorem State.commit_branch_inv {a : Byte} {taken : Bool} {s t : State}
    (h : s.commit (s.branch taken a) = .next t) :
    (∃ r, Reg.ofIndex a = some r ∧ s.pc.toNat ≤ 254 ∧ taken = true ∧ t = s.setPc (s.reg r)) ∨
      (a.toNat ≤ 7 ∧ s.pc.toNat ≤ 253 ∧ taken = false ∧
        t = s.setPc (BitVec.ofNat 8 (s.pc.toNat + 2))) ∨
      RaisedByOperands s t := by
  rcases s.branch_cases taken a with
    ⟨r, ha, hp, ht, e⟩ | ⟨ha, hp, ht, e⟩ | ⟨hp, e⟩ | ⟨hp, ha, e⟩ | ⟨hp, ha, ht, e⟩
  · exact .inl ⟨r, ha, hp, ht, next_inj ((congrArg s.commit e).symm.trans h)⟩
  · exact .inr (.inl ⟨ha, hp, ht, next_inj ((congrArg s.commit e).symm.trans h)⟩)
  · exact .inr (.inr (.inl (next_inj ((congrArg s.commit e).symm.trans h))))
  · exact .inr (.inr (.inr ⟨a, ha, next_inj ((congrArg s.commit e).symm.trans h)⟩))
  · exact .inr (.inr (.inl (next_inj ((congrArg s.commit e).symm.trans h))))

/-- Every meaning answers a next state. -/
theorem exec_answers (i : Instr) (s : State) : ∃ t, exec i s = .next t := by
  have hc : ∀ c : Check State, ∃ t, s.commit c = .next t := fun c => by cases c <;> exact ⟨_, rfl⟩
  cases i with
  | hlt => exact ⟨_, rfl⟩
  | ret => exact ⟨_, rfl⟩
  | ldi _ _ => exact hc _
  | prn _ => exact hc _
  | add _ _ => exact hc _
  | mul _ _ => exact hc _
  | cmp _ _ => exact hc _
  | push _ => exact hc _
  | pop _ => exact hc _
  | call _ => exact hc _
  | jmp _ => exact hc _
  | jeq _ => exact hc _
  | jne _ => exact hc _

end Sys2Proof.Machine
end

