-- ==== Sys2Proof/Laws/PerInstr.lean ====
section
/-! SUPPORT. Statements about every instruction as syntax, one lemma per constructor. -/

namespace Sys2Proof.Laws.EncodeShape

/-- The encoding begins with the opcode byte of the instruction's operation, has one to three bytes,
and its length is what bits 7:6 of that byte say and what the format says (R50, R52, R55). -/
def Statement (i : Instr) : Prop :=
  (encode i).head? = some (Config.opcodeMap i.mnemonic) ∧
  (encode i).length = i.length ∧
  i.length = instrLength (Config.opcodeMap i.mnemonic) ∧
  1 ≤ i.length ∧ i.length ≤ 3

theorem mnemonic_shape (m : Mnemonic) :
    1 + m.format.operandBytes = instrLength (Config.opcodeMap m) ∧
      1 ≤ 1 + m.format.operandBytes ∧ 1 + m.format.operandBytes ≤ 3 := by
  cases m <;> decide

theorem hlt : Statement .hlt := ⟨rfl, rfl, mnemonic_shape .hlt⟩
theorem ldi (r imm : Byte) : Statement (.ldi r imm) := ⟨rfl, rfl, mnemonic_shape .ldi⟩
theorem prn (r : Byte) : Statement (.prn r) := ⟨rfl, rfl, mnemonic_shape .prn⟩
theorem add (ra rb : Byte) : Statement (.add ra rb) := ⟨rfl, rfl, mnemonic_shape .add⟩
theorem mul (ra rb : Byte) : Statement (.mul ra rb) := ⟨rfl, rfl, mnemonic_shape .mul⟩
theorem cmp (ra rb : Byte) : Statement (.cmp ra rb) := ⟨rfl, rfl, mnemonic_shape .cmp⟩
theorem push (r : Byte) : Statement (.push r) := ⟨rfl, rfl, mnemonic_shape .push⟩
theorem pop (r : Byte) : Statement (.pop r) := ⟨rfl, rfl, mnemonic_shape .pop⟩
theorem call (r : Byte) : Statement (.call r) := ⟨rfl, rfl, mnemonic_shape .call⟩
theorem ret : Statement .ret := ⟨rfl, rfl, mnemonic_shape .ret⟩
theorem jmp (r : Byte) : Statement (.jmp r) := ⟨rfl, rfl, mnemonic_shape .jmp⟩
theorem jeq (r : Byte) : Statement (.jeq r) := ⟨rfl, rfl, mnemonic_shape .jeq⟩
theorem jne (r : Byte) : Statement (.jne r) := ⟨rfl, rfl, mnemonic_shape .jne⟩

end Sys2Proof.Laws.EncodeShape
end

