-- ==== Sys2Proof/Laws/Step.lean ====
section
/-! SUPPORT. Laws of the decoder's parts, of the fetch and of the step. -/

namespace Sys2Proof

theorem lookupOpcode_opcodeMap (m : Mnemonic) : lookupOpcode (Config.opcodeMap m) = some m := by
  cases m <;> rfl

/-- The lookup finds an operation exactly for its byte of the map. -/
theorem lookupOpcode_eq_some {op : Byte} {m : Mnemonic} :
    lookupOpcode op = some m ↔ op = Config.opcodeMap m := by
  constructor
  · intro h
    have := List.find?_some h
    simpa using Eq.symm (by simpa using this)
  · rintro rfl
    exact lookupOpcode_opcodeMap m

/-- Bits 7:6 of a known opcode count the operand bytes of its format. -/
theorem operandCount_opcodeMap (m : Mnemonic) :
    operandCount (Config.opcodeMap m) = m.format.operandBytes := by
  cases m <;> rfl

/-- Everything decoding from a known opcode byte can answer. -/
theorem decodeAfter_known (m : Mnemonic) (rest : List Byte) :
    decodeAfter (Config.opcodeMap m) rest =
      match m.format.operandBytes, rest with
      | 0, rest => .ok (assemble m 0 0, rest)
      | 1, a :: rest => .ok (assemble m a 0, rest)
      | _, a :: b :: rest => .ok (assemble m a b, rest)
      | _, [] => .error (.operandMissing 1)
      | _, [_] => .error (.operandMissing 2) := by
  unfold decodeAfter
  rw [lookupOpcode_opcodeMap, operandCount_opcodeMap] <;> rfl

theorem decodeAfter_unknown {op : Byte} (h : lookupOpcode op = none) (rest : List Byte) :
    decodeAfter op rest = .error (.unknownOpcode op) := by
  unfold decodeAfter
  rw [h]

end Sys2Proof

namespace Sys2Proof.Machine

/-- The bytes at PC are the opcode byte and the operand bytes the fetch reads. -/
theorem State.bytesFrom_pc (s : State) :
    s.mem.bytesFrom s.pc.toNat 3 = s.fetchOpcode :: s.fetchOperands := by
  have h : s.pc.toNat ≤ topAddress := by have := s.pc.isLt; unfold topAddress; omega
  rw [Memory.bytesFrom, if_pos h]
  rfl

/-- The operand bytes the fetch reads: two, one at address 254, none at 255. -/
theorem State.fetchOperands_eq (s : State) :
    s.fetchOperands =
      if s.pc.toNat + 2 ≤ 255 then [s.memRead (s.pc + 1), s.memRead (s.pc + 2)]
      else if s.pc.toNat + 1 ≤ 255 then [s.memRead (s.pc + 1)] else [] := by
  have hlt := s.pc.isLt
  have h1 : s.pc.toNat + 1 ≤ 255 → (s.pc + 1).toNat = s.pc.toNat + 1 := by intro h; simp; omega
  have h2 : s.pc.toNat + 2 ≤ 255 → (s.pc + 2).toNat = s.pc.toNat + 2 := by intro h; simp; omega
  unfold State.fetchOperands State.memRead Memory.read
  rw [Memory.bytesFrom_two]
  by_cases c2 : s.pc.toNat + 2 ≤ 255
  · rw [if_pos (by unfold topAddress; omega), if_pos c2, h1 (by omega), h2 c2]
  · by_cases c1 : s.pc.toNat + 1 ≤ 255
    · rw [if_neg (by unfold topAddress; omega), if_pos (by unfold topAddress; omega), if_neg c2,
        if_pos c1, h1 c1]
    · rw [if_neg (by unfold topAddress; omega), if_neg (by unfold topAddress; omega), if_neg c2,
        if_neg c1]

/-- Everything a fetch can answer: the fault of an unknown opcode, the fault of an operand address,
or the instruction made of the bytes at PC, whose operation is the opcode's. -/
theorem State.fetchInstr_cases (s : State) :
    (lookupOpcode (s.memRead s.pc) = none ∧
        s.fetchInstr = .error { cause := .unknownOpcode, info := (s.memRead s.pc).toNat }) ∨
      (∃ m, lookupOpcode (s.memRead s.pc) = some m ∧
        255 < s.pc.toNat + m.format.operandBytes ∧
        s.fetchInstr = .error { cause := .addressOutOfRange, info := 256 }) ∨
      (∃ m, lookupOpcode (s.memRead s.pc) = some m ∧
        s.pc.toNat + m.format.operandBytes ≤ 255 ∧
        s.fetchInstr = .ok (assemble m (s.memRead (s.pc + 1)) (s.memRead (s.pc + 2)))) := by
  have hlt := s.pc.isLt
  cases h : lookupOpcode (s.memRead s.pc) with
  | none =>
    refine .inl ⟨rfl, ?_⟩
    unfold State.fetchInstr State.fetchOpcode
    rw [decodeAfter_unknown h]
    rfl
  | some m =>
    have hf : s.fetchInstr =
        match decodeAfter (Config.opcodeMap m) s.fetchOperands with
        | .ok (i, _) => .ok i
        | .error e => .error (s.decodeFault e) := by
      unfold State.fetchInstr State.fetchOpcode
      rw [lookupOpcode_eq_some.1 h] <;> rfl
    rw [hf, decodeAfter_known, State.fetchOperands_eq]
    by_cases c2 : s.pc.toNat + 2 ≤ 255
    · rw [if_pos c2]
      refine .inr (.inr ⟨m, rfl, ?_, ?_⟩) <;> cases m <;>
        simp [Mnemonic.format, Format.operandBytes, assemble] <;> omega
    · rw [if_neg c2]
      by_cases c1 : s.pc.toNat + 1 ≤ 255
      · have hp : s.pc.toNat = 254 := by omega
        rw [if_pos c1, hp]
        cases m <;>
          simp [Mnemonic.format, Format.operandBytes, assemble, State.decodeFault, hp]
      · have hp : s.pc.toNat = 255 := by omega
        rw [if_neg c1, hp]
        cases m <;>
          simp [Mnemonic.format, Format.operandBytes, assemble, State.decodeFault, hp]

/-- A step of a Running engine is its fetch, then exec or the fault of the fetch. -/
theorem step_running {s : State} (h : s.status = .running) :
    step s = match s.fetchInstr with
      | .ok i => exec i s
      | .error f => .next (s.raise f) := by
  unfold step
  rw [h] <;> rfl

end Sys2Proof.Machine
end

