-- ==== Sys2Proof/Tests/Slice0.lean ====
section
/-! SUPPORT. The model's own tests. Expected results are the vectors V<n> of spec/95_test_vectors.md or
are worked out from the rule named. -/

namespace Sys2Proof.Machine.Tests

open Sys2Proof Sys2Proof.Machine

/-- A Running machine with these bytes at `pc`, everything else as after reset. -/
def at_ (pc : Byte) (bytes : List Byte) : State :=
  { State.reset with pc := pc, mem := Memory.putBytes [] pc.toNat bytes, status := .running }

/-- The next state, if the outcome is one. -/
def nextOf (o : Outcome) : Option State :=
  match o with
  | .next t => some t
  | .fault _ => none
  | .refused _ => none

/-- One step, and something read off the next state. -/
def after {α : Type} (s : State) (f : State → α) : Option α := (nextOf (step s)).map f

/-! ### Well-formedness (R53): one ill-formed term for each check -/

theorem test_wf_accepts : Instr.wellFormed (.add 7 0) = true ∧ Instr.wellFormed (.ldi 7 255) = true ∧
    Instr.wellFormed .ret = true := by decide

theorem test_wf_refuses :
    (∀ i ∈ ([.ldi 8 0, .prn 8, .add 8 0, .add 0 8, .mul 8 0, .mul 0 8, .cmp 8 0, .cmp 0 8, .push 8,
      .pop 8, .call 8, .jmp 8, .jeq 8, .jne 255] : List Instr), i.wellFormed = false) := by decide

/-! ### Decoding: the words written out from R56, bit by bit for one of each format -/

theorem test_decode_hlt : decode [0b00000001] = .ok (.hlt, []) := rfl
theorem test_decode_ldi : decode [0b10000010, 0b00000110, 0b11110000] = .ok (.ldi 6 240, []) := rfl
theorem test_decode_prn : decode [0b01000111, 0b00000011] = .ok (.prn 3, []) := rfl
theorem test_decode_add : decode [0b10100000, 0x00, 0x01] = .ok (.add 0 1, []) := rfl
theorem test_decode_mul : decode [0b10100010, 0x03, 0x02] = .ok (.mul 3 2, []) := rfl
theorem test_decode_cmp : decode [0b10100111, 0x01, 0x04] = .ok (.cmp 1 4, []) := rfl
theorem test_decode_push : decode [0b01000101, 0x05] = .ok (.push 5, []) := rfl
theorem test_decode_pop : decode [0b01000110, 0x06] = .ok (.pop 6, []) := rfl
theorem test_decode_call : decode [0b01010000, 0x01, 0x47] = .ok (.call 1, [0x47]) := rfl
theorem test_decode_ret : decode [0b00010001, 0x01] = .ok (.ret, [0x01]) := rfl
theorem test_decode_jmp : decode [0b01010100, 0x02] = .ok (.jmp 2, []) := rfl
theorem test_decode_jeq : decode [0b01010101, 0x05] = .ok (.jeq 5, []) := rfl
theorem test_decode_jne : decode [0b01010110, 0x05] = .ok (.jne 5, []) := rfl

/-- Bytes that look like a known opcode but for one field, zero, and a missing operand (R57 to R60,
R73). -/
theorem test_decode_rejects :
    decode [0xA1, 0, 0] = .error (.unknownOpcode 0xA1) ∧
    decode [0x02, 0, 0] = .error (.unknownOpcode 0x02) ∧
    decode [0xC1, 0, 0] = .error (.unknownOpcode 0xC1) ∧
    decode [0x00] = .error (.unknownOpcode 0x00) ∧
    decode [0x47] = .error (.operandMissing 1) ∧ decode [0x82, 0x00] = .error (.operandMissing 2) :=
  ⟨rfl, rfl, rfl, rfl, rfl, rfl⟩

/-! ### One step of each instruction -/

/-- V2 -/
theorem test_hlt_at_top : after (at_ 255 [0x01]) (fun t => (t.status, t.pc)) =
    some (.halted, 255) := by decide

/-- V7: the last address LDI can stand at. -/
theorem test_ldi_252 : after (at_ 252 [0x82, 0x01, 0x05]) (fun t => (t.reg .r1, t.pc, t.status)) =
    some (5, 255, .running) := by decide

/-- V74 -/
theorem test_ldi_advance_faults : after (at_ 253 [0x82, 0x00, 0x01])
    (fun t => (t.reg .r0, t.pc, t.status)) =
      some (0, 253, .faulted { cause := .addressOutOfRange, addr := 253, info := 256 }) := by decide

/-- V9 -/
theorem test_prn_255 : after ((at_ 0 [0x47, 0x02]).setReg .r2 255)
    (fun t => (t.output, t.pc)) = some ([255], 2) := by decide

/-- R86, D11: what the sink's text then is. -/
theorem test_sink_255 : sinkText [255] = ['2', '5', '5', Char.ofNat 10] := rfl

/-- V68 -/
theorem test_prn_bad_index : after (at_ 0 [0x47, 0x08]) (fun t => (t.output, t.status)) =
    some ([], .faulted { cause := .registerIndexOutOfRange, addr := 0, info := 8 }) := by decide

/-- V11 -/
theorem test_add_wraps : after (((at_ 6 [0xA0, 0x00, 0x01]).setReg .r0 200).setReg .r1 100)
    (fun t => (t.reg .r0, t.reg .r1, t.pc, t.fl)) = some (44, 100, 9, 0) := by decide

/-- V13: both operands the same register. -/
theorem test_add_doubles : after ((at_ 0 [0xA0, 0x02, 0x02]).setReg .r2 130)
    (fun t => t.reg .r2) = some 4 := by decide

/-- V18 -/
theorem test_mul_low_byte : after (((at_ 0 [0xA2, 0x00, 0x01]).setReg .r0 255).setReg .r1 255)
    (fun t => (t.reg .r0, t.pc)) = some (1, 3) := by decide

/-- V19 -/
theorem test_mul_squares : after ((at_ 0 [0xA2, 0x03, 0x03]).setReg .r3 15)
    (fun t => t.reg .r3) = some 225 := by decide

/-- V25 -/
theorem test_cmp_unsigned : after (((at_ 0 [0xA7, 0x00, 0x01]).setReg .r0 128).setReg .r1 127)
    (fun t => (t.fl, t.reg .r0, t.pc)) = some (0x02, 128, 3) := by decide

/-- V26 and V27: the old flags have no influence; contents are compared, not operand bytes. -/
theorem test_cmp_contents :
    after ((at_ 0 [0xA7, 0x04, 0x04]).setFl 0x04) (fun t => t.fl) = some 0x01 ∧
    after (((at_ 0 [0xA7, 0x01, 0x00]).setReg .r0 5).setReg .r1 1) (fun t => t.fl) = some 0x04 := by
  decide

/-- V31 -/
theorem test_push_wraps : after ((at_ 3 [0x45, 0x00]).setReg .r0 1)
    (fun t => (t.reg .sp, t.memRead 255, t.pc)) = some (255, 1, 5) := by decide

/-- V34 and V75 -/
theorem test_push_r6 :
    after ((at_ 0 [0x45, 0x06]).setReg .r6 0xF0) (fun t => (t.reg .sp, t.memRead 0xEF)) =
      some (0xEF, 0xEF) ∧
    after ((at_ 254 [0x45, 0x00]).setReg .r6 0x80) (fun t => (t.reg .sp, t.memRead 0x7F, t.status)) =
      some (0x80, 0, .faulted { cause := .addressOutOfRange, addr := 254, info := 256 }) := by
  decide

/-- V33 -/
theorem test_pop_wraps : after (((at_ 0 [0x46, 0x01]).setReg .r6 255).memWrite 255 0x77)
    (fun t => (t.reg .r1, t.reg .sp, t.memRead 255, t.pc)) = some (0x77, 0, 0x77, 2) := by decide

/-- V35 -/
theorem test_pop_r6 : after (((at_ 0 [0x46, 0x06]).setReg .r6 0xF0).memWrite 0xF0 0x20)
    (fun t => t.reg .sp) = some 0x21 := by decide

/-- V42: the highest legal address of a CALL; V76: one higher. -/
theorem test_call_253 :
    after (((at_ 253 [0x50, 0x02]).setReg .r2 7).setReg .r6 0x10)
      (fun t => (t.reg .sp, t.memRead 0x0F, t.pc)) = some (0x0F, 255, 7) ∧
    after ((at_ 254 [0x50, 0x00]).setReg .r6 0x80)
      (fun t => (t.reg .sp, t.memRead 0x7F, t.pc, t.status)) =
        some (0x80, 0, 254, .faulted { cause := .addressOutOfRange, addr := 254, info := 256 }) := by
  decide

/-- V45 -/
theorem test_call_r6 : after ((at_ 0 [0x50, 0x06]).setReg .r6 0x10)
    (fun t => (t.reg .sp, t.memRead 0x0F, t.pc)) = some (0x0F, 2, 0x0F) := by decide

/-- V44: the RET byte is also the top of the stack. -/
theorem test_ret_at_top : after ((at_ 255 [0x11]).setReg .r6 255)
    (fun t => (t.pc, t.reg .sp, t.status)) = some (0x11, 0, .running) := by decide

/-- V51 -/
theorem test_jmp_254 : after ((at_ 254 [0x54, 0x00]).setReg .r0 255) (fun t => (t.pc, t.status)) =
    some (255, .running) := by decide

/-- V53 and V55 -/
theorem test_jeq :
    after (((at_ 27 [0x55, 0x05]).setReg .r5 40).setFl 0x01) (fun t => t.pc) = some 40 ∧
    after (((at_ 27 [0x55, 0x05]).setReg .r5 40).setFl 0x04) (fun t => t.pc) = some 29 := by decide

/-- V72: the index is checked although the branch is not taken. -/
theorem test_jeq_bad_index : after (at_ 0 [0x55, 0x08]) (fun t => t.status) =
    some (.faulted { cause := .registerIndexOutOfRange, addr := 0, info := 8 }) := by decide

/-- V57 and V59 -/
theorem test_jne :
    after (((at_ 27 [0x56, 0x05]).setReg .r5 18).setFl 0x01) (fun t => t.pc) = some 29 ∧
    after ((at_ 27 [0x56, 0x05]).setReg .r5 18) (fun t => t.pc) = some 18 := by decide

/-- V59a for JNE's mirror: taken at 254 is legal; V78: not taken there it faults. -/
theorem test_jne_254 :
    after ((at_ 254 [0x56, 0x00]).setReg .r0 255) (fun t => t.pc) = some 255 ∧
    after ((at_ 254 [0x56, 0x00]).setFl 0x01) (fun t => t.status) =
      some (.faulted { cause := .addressOutOfRange, addr := 254, info := 256 }) := by decide

/-! ### Order of checks (R126) and the fault record -/

/-- V60, V62, V66, V67, V70, V71. -/
theorem test_fault_order :
    after (at_ 0 []) (fun t => t.status) =
      some (.faulted { cause := .unknownOpcode, addr := 0, info := 0 }) ∧
    after (at_ 255 [0xFF]) (fun t => t.status) =
      some (.faulted { cause := .unknownOpcode, addr := 255, info := 0xFF }) ∧
    after (at_ 254 [0x82, 0x00]) (fun t => t.status) =
      some (.faulted { cause := .addressOutOfRange, addr := 254, info := 256 }) ∧
    after (at_ 255 [0xA0]) (fun t => t.status) =
      some (.faulted { cause := .addressOutOfRange, addr := 255, info := 256 }) ∧
    after (at_ 253 [0xA0, 0x09, 0x0A]) (fun t => t.status) =
      some (.faulted { cause := .registerIndexOutOfRange, addr := 253, info := 9 }) ∧
    after (at_ 0 [0xA7, 0x00, 0x08]) (fun t => (t.status)) =
      some (.faulted { cause := .registerIndexOutOfRange, addr := 0, info := 8 }) := by decide

/-- A faulting step changes nothing but the status (R124), on V75's state. -/
theorem test_fault_changes_nothing_else :
    after ((at_ 254 [0x45, 0x00]).setReg .r6 0x80) (fun t => t.setStatus .running) =
      some ((at_ 254 [0x45, 0x00]).setReg .r6 0x80) := by decide

/-! ### The host's interface and memory's form -/

/-- R142: reset, then `run` with nothing loaded, one step. -/
theorem test_boot_with_nothing_loaded :
    (match hostRun State.reset with
     | .ok s => after s (fun t => (t.status, t.pc))
     | .error _ => none) =
      some (.faulted { cause := .unknownOpcode, addr := 0, info := 0 }, 0) := by decide

/-- R166, R168: program bytes from 0 up, a written cell, a zero written back leaves no entry. -/
theorem test_load_and_write :
    (match hostLoad [0x82, 0x00, 0x08] State.reset with
     | .ok s => some s.mem
     | .error _ => none) = some [(0, 0x82), (2, 0x08)] ∧
    (Memory.write [(0, 0x82), (2, 0x08)] 0 0x00) = [(2, 0x08)] ∧
    hostWrite 256 0 State.reset = .error .addressOutOfRange ∧
    hostWrite 255 256 State.reset = .error .valueOutOfRange ∧
    hostRead 256 State.reset = .error .addressOutOfRange := by
  refine ⟨by decide, by decide, rfl, rfl, rfl⟩

theorem test_memory_wf : Memory.wf [(0, 1), (255, 2)] = true ∧ Memory.wf [(256, 1)] = false ∧
    Memory.wf [(3, 0)] = false ∧ Memory.wf [(3, 1), (3, 2)] = false := by decide

/-- The opcode-table word of `LDI R0,0` placed at reset is what the next step runs. -/
theorem test_with_fetch_word : decodeTableWord 24 0x82 = some (.ldi 0 0) ∧
    after (State.reset.withFetchWord 24 0x82) (fun t => (t.reg .r0, t.pc, t.status)) =
      some (0, 3, .running) := by decide

/-! ### Witnesses: concrete states and operands that meet each statement's hypotheses, at the ends of
each clause's range -/

theorem witness_DecodedBytesAreTheEncoding : decode [0xA2, 0xFF, 0x01, 0x07] =
    .ok (.mul 0xFF 0x01, [0x07]) := rfl

theorem witness_OpcodeLookupIsByWholeByte :
    (0xA7 : Byte) = Config.opcodeMap (Instr.cmp 0 0).mnemonic ∧
    (∀ m, (0xA6 : Byte) ≠ Config.opcodeMap m) ∧
    (0x46 : Byte) ≠ 0x45 ∧ lookupOpcode 0x46 = some .pop := by
  refine ⟨rfl, ?_, by decide, rfl⟩
  intro m
  cases m <;> decide

theorem witness_UnknownOpcodeFaults : 0xC0 ≤ (0xC0 : Byte).toNat ∧ 0xC0 ≤ (0xFF : Byte).toNat ∧
    (at_ 255 [0xFF]).status = .running ∧
    lookupOpcode ((at_ 255 [0xFF]).memRead (at_ 255 [0xFF]).pc) = none := by decide

theorem witness_StepRunsTheDecodedInstruction :
    (at_ 253 [0xA0, 0x07, 0xFF]).status = .running ∧
    decode ((at_ 253 [0xA0, 0x07, 0xFF]).mem.bytesFrom (at_ 253 []).pc.toNat 3) =
      .ok (.add 7 0xFF, []) ∧
    decode ((at_ 255 [0x11]).mem.bytesFrom (at_ 255 []).pc.toNat 3) = .ok (.ret, []) :=
  ⟨rfl, rfl, rfl⟩

theorem witness_PlacedInstructionIsRun : (at_ 253 []).pc.toNat ≤ 253 ∧
    decodeTableWord 8 0x01 = some .hlt ∧ decodeTableWord 24 0x0700A0 = some (.add 0 7) := by decide

/-- One state for each branch of R126's chain: `test_fault_order` runs the faulting ones. -/
theorem witness_ChecksAreMadeInOrder :
    (at_ 255 [0xFF]).status = .running ∧
    lookupOpcode ((at_ 255 [0xFF]).memRead 255) = none ∧
    lookupOpcode ((at_ 254 [0x82, 0x00]).memRead 254) = some .ldi ∧
    lookupOpcode ((at_ 253 [0xA0, 0x09, 0x0A]).memRead 253) = some .add ∧
    (7 < ((at_ 253 [0xA0, 0x09, 0x0A]).memRead 254).toNat) ∧
    (7 < ((at_ 253 [0xA0, 0x07, 0x08]).memRead 255).toNat) ∧
    checksNextAddress (at_ 254 [0x55, 0x00]).flagE .jeq = true ∧
    checksNextAddress (at_ 254 [0x56, 0x00]).flagE .jne = false ∧
    after (at_ 254 [0x56, 0x00]) (fun t => t.status) = some .running := by decide

theorem witness_EngineStepsOnlyWhileRunning : State.reset.status = .ready ∧
    (State.reset.setStatus .halted).status = .halted ∧
    ((at_ 9 []).faultedWith .unknownOpcode 0).status =
      .faulted { cause := .unknownOpcode, addr := 9, info := 0 } := by decide

theorem witness_RunningStepAnswersNextState : (at_ 0 []).status = .running ∧
    (at_ 255 [0x01]).status = .running := by decide

theorem reset_inv : State.reset.Inv where
  mem := rfl
  fl := .inl rfl
  fault := by intro r h; cases h

theorem pushState_inv : (at_ 3 [0x45, 0x00]).Inv where
  mem := by decide
  fl := .inl rfl
  fault := by intro r h; cases h

theorem witness_StepKeepsInvariant : (at_ 3 [0x45, 0x00]).Inv ∧
    ∃ t, step (at_ 3 [0x45, 0x00]) = .next t ∧ t.reg .sp = 0xFF :=
  ⟨pushState_inv, _, rfl, rfl⟩

theorem witness_HostOperationsKeepInvariant : State.reset.Inv ∧
    (∃ t, hostLoad [0x01] State.reset = .ok t) ∧ (∃ t, hostWrite 255 255 State.reset = .ok t) ∧
    (∃ t, hostRun State.reset = .ok t) :=
  ⟨reset_inv, ⟨_, rfl⟩, ⟨_, rfl⟩, ⟨_, rfl⟩⟩

/-- A reachable state in which a CMP has run. -/
theorem witness_ReachableStatesMeetStatedInvariants : ∃ s, Reachable s ∧ s.fl = 0x01 :=
  ⟨_, .step (.run (.load (program := [0xA7, 0, 0]) .reset rfl) rfl) rfl, rfl⟩

theorem witness_FaultingStepChangesNothingElse : (at_ 254 [0x47, 0x00]).status = .running ∧
    ∃ t r, step (at_ 254 [0x47, 0x00]) = .next t ∧ t.status = .faulted r :=
  ⟨rfl, _, _, rfl, rfl⟩

/-- One fault of each cause a step can raise, and a register index in byte 1 and in byte 2. -/
theorem witness_FaultRecordsAreAsListed : (at_ 0 [0x47, 0xFF]).status = .running ∧
    after (at_ 0 [0xFF]) (fun t => t.status) =
      some (.faulted { cause := .unknownOpcode, addr := 0, info := 255 }) ∧
    after (at_ 255 [0x47]) (fun t => t.status) =
      some (.faulted { cause := .addressOutOfRange, addr := 255, info := 256 }) ∧
    after (at_ 0 [0x47, 0x08]) (fun t => t.status) =
      some (.faulted { cause := .registerIndexOutOfRange, addr := 0, info := 8 }) ∧
    after (at_ 253 [0xA7, 0x07, 0xFF]) (fun t => t.status) =
      some (.faulted { cause := .registerIndexOutOfRange, addr := 253, info := 255 }) := by decide

theorem witness_ComputedValuesCauseNoFault : (at_ 254 []).status = .running ∧
    ((at_ 254 []).setReg .r6 0xFF).pc = (at_ 254 []).pc ∧
    ((at_ 254 []).setReg .r6 0xFF).flagE = (at_ 254 []).flagE ∧
    ∃ t r, exec (.push 0) (at_ 254 []) = .next t ∧ t.status = .faulted r :=
  ⟨rfl, rfl, rfl, _, _, rfl, rfl⟩

theorem witness_AluIsAFunctionOfItsOperands : (255 : Byte).toNat = (255 : Byte).toNat ∧
    (255 : Byte).toNat > (0 : Byte).toNat ∧ (0 : Byte).toNat < (255 : Byte).toNat := by decide

/-- The hypotheses of every statement on ADD, MUL and CMP, at the ends of their ranges. -/
theorem witness_AluInstructions : Reg.ofIndex 0 = some .r0 ∧ Reg.ofIndex 7 = some .r7 ∧
    (at_ 252 []).pc.toNat ≤ 252 ∧ 254 ≤ (at_ 254 []).pc.toNat ∧ 254 ≤ (at_ 255 []).pc.toNat ∧
    (at_ 253 []).pc.toNat ≤ 253 ∧ (at_ 253 []).pc.toNat = 253 ∧ 7 < (8 : Byte).toNat ∧
    7 < (255 : Byte).toNat ∧ (7 : Byte).toNat ≤ 7 := by decide

/-- CompareSetsExactlyOneFlag: one state for each relation. -/
theorem witness_CompareSetsExactlyOneFlag :
    ((at_ 252 []).reg .r0).toNat = ((at_ 252 []).reg .r7).toNat ∧
    (((at_ 252 []).setReg .r0 255).reg .r0).toNat > (((at_ 252 []).setReg .r0 255).reg .r7).toNat ∧
    (((at_ 252 []).setReg .r7 1).reg .r0).toNat < (((at_ 252 []).setReg .r7 1).reg .r7).toNat := by
  decide

theorem witness_FlagsAreWrittenByCmpAndReadByBranches :
    (∃ t, exec (.cmp 0 7) (at_ 252 []) = .next t ∧ t.fl = 0x01) ∧
    (∀ a, Instr.ldi 0 0 ≠ .jeq a ∧ Instr.ldi 0 0 ≠ .jne a) ∧
    (∃ t, exec (.ldi 0 0) (at_ 0 []) = .next t) ∧
    (0x06 : Byte).getLsbD 0 = (at_ 0 []).fl.getLsbD 0 ∧
    (∃ t, exec (.jne 7) (at_ 254 []) = .next t) :=
  ⟨⟨_, rfl, rfl⟩, by simp, ⟨_, rfl⟩, rfl, ⟨_, rfl⟩⟩

/-- The hypotheses of the statements on JEQ, JNE and JMP, at the ends of their ranges. -/
theorem witness_BranchInstructions : Reg.ofIndex 7 = some .r7 ∧ (at_ 253 []).pc.toNat ≤ 253 ∧
    (at_ 254 []).pc.toNat ≤ 254 ∧ (at_ 254 []).pc.toNat = 254 ∧ (at_ 255 []).pc.toNat = 255 ∧
    (at_ 253 []).fl = 0x00 ∧ (at_ 253 []).fl.getLsbD 0 = false ∧
    ((at_ 254 []).setFl 0x01).fl.getLsbD 0 = true ∧ (7 : Byte).toNat ≤ 7 ∧
    7 < (8 : Byte).toNat := by decide

theorem witness_ReadReturnsLatestWrite : (∃ t, hostWrite 255 255 State.reset = .ok t) ∧
    (∃ t, hostLoad [] State.reset = .ok t) ∧ (∃ t, hostLoad [1, 2] State.reset = .ok t) :=
  ⟨⟨_, rfl⟩, ⟨_, rfl⟩, ⟨_, rfl⟩⟩

theorem witness_CanonicalMemoriesAreEqualWhenReadEqual :
    Memory.wf [(0, 1), (255, 2)] = true ∧
    ∀ x : Byte, Memory.read [(0, 1), (255, 2)] x = Memory.read [(0, 1), (255, 2)] x :=
  ⟨by decide, fun _ => rfl⟩

theorem witness_StackPointerWrapsModulo256 : Reg.ofIndex 0 = some .r0 ∧ Reg.ofIndex 6 = some .sp ∧
    Reg.r0 ≠ .sp ∧ (at_ 253 []).pc.toNat ≤ 253 ∧ (at_ 253 []).reg .sp = 0x00 ∧
    ((at_ 253 []).setReg .sp 0xFF).reg .sp = 0xFF := by decide

/-- The hypotheses of the statements on PRN, PUSH, POP, CALL, at the ends of their ranges. -/
theorem witness_TwoByteInstructions : Reg.ofIndex 7 = some .r7 ∧ Reg.ofIndex 6 = some .sp ∧
    Reg.r7 ≠ .sp ∧ (at_ 0 []).pc.toNat ≤ 253 ∧ (at_ 253 []).pc.toNat ≤ 253 ∧
    (at_ 254 []).pc.toNat = 254 ∧ (at_ 255 []).pc.toNat = 255 ∧ (at_ 254 []).pc.toNat ≤ 254 ∧
    (0 : Byte).toNat ≤ 7 ∧ (7 : Byte).toNat ≤ 7 ∧ 7 < (8 : Byte).toNat ∧
    7 < (255 : Byte).toNat := by decide

/-- The hypotheses of LdiLoadsTheImmediate, at the ends of their ranges. -/
theorem witness_LdiLoadsTheImmediate : Reg.ofIndex 7 = some .r7 ∧ (at_ 252 []).pc.toNat ≤ 252 ∧
    254 ≤ (at_ 254 []).pc.toNat ∧ 254 ≤ (at_ 255 []).pc.toNat ∧ (at_ 253 []).pc.toNat ≤ 253 ∧
    7 < (8 : Byte).toNat ∧ (at_ 253 []).pc.toNat = 253 ∧ (7 : Byte).toNat ≤ 7 := by decide

/-- Each frame's hypothesis: the instruction answers a next state, with its effect and with a fault. -/
theorem witness_LdiAddMulChangeOnlyTheirDestination :
    (∃ t, exec (.ldi 6 255) (at_ 252 []) = .next t) ∧ (∃ t, exec (.add 7 0) (at_ 252 []) = .next t) ∧
    (∃ t, exec (.mul 0 0) (at_ 253 []) = .next t) ∧ Reg.ofIndex 6 ≠ some .r5 :=
  ⟨⟨_, rfl⟩, ⟨_, rfl⟩, ⟨_, rfl⟩, by decide⟩

theorem witness_CmpAndPrnChangeNoRegisterAndNoMemory :
    (∃ t, exec (.cmp 0 8) (at_ 0 []) = .next t) ∧ (∃ t, exec (.prn 6) (at_ 253 []) = .next t) :=
  ⟨⟨_, rfl⟩, ⟨_, rfl⟩⟩

theorem witness_PushAndCallChangeOneByteAndTheStackPointer :
    (∃ t, exec (.push 6) (at_ 0 []) = .next t ∧ (0xFE : Byte) ≠ (at_ 0 []).predecSp.reg .sp) ∧
    (∃ t, exec (.call 0) (at_ 253 []) = .next t) :=
  ⟨⟨_, rfl, by decide⟩, ⟨_, rfl⟩⟩

theorem witness_PopAndRetChangeNoMemory :
    (∃ t, exec (.pop 6) (at_ 0 []) = .next t) ∧ (∃ t, exec .ret (at_ 255 []) = .next t) :=
  ⟨⟨_, rfl⟩, ⟨_, rfl⟩⟩

theorem witness_JumpsAndHltChangeOnlyPcOrStatus :
    (∃ t, exec .hlt (at_ 255 []) = .next t) ∧ (∃ t, exec (.jmp 0) (at_ 254 []) = .next t) ∧
    (∃ t, exec (.jeq 0) (at_ 0 []) = .next t) ∧ (∃ t, exec (.jne 8) (at_ 0 []) = .next t) :=
  ⟨⟨_, rfl⟩, ⟨_, rfl⟩, ⟨_, rfl⟩, ⟨_, rfl⟩⟩

theorem witness_UnreadRegistersDoNotMatter :
    readsReg (at_ 0 []).flagE .r7 (.add 0 1) = false ∧
    readsReg (at_ 0 []).flagE .r0 (.pop 0) = false ∧
    readsReg (at_ 0 []).flagE .r0 (.jeq 0) = false ∧
    (∃ t, exec (.add 0 1) (at_ 0 []) = .next t) ∧ (∃ t, exec (.pop 0) (at_ 0 []) = .next t) ∧
    (∃ t, exec (.jeq 0) (at_ 0 []) = .next t) :=
  ⟨rfl, rfl, rfl, ⟨_, rfl⟩, ⟨_, rfl⟩, ⟨_, rfl⟩⟩

theorem witness_OnlyHltHaltsTheEngine : (at_ 255 [0x01]).status = .running ∧
    ∃ t, step (at_ 255 [0x01]) = .next t ∧ t.status = .halted :=
  ⟨rfl, _, rfl, rfl⟩

theorem witness_OnlyListedInstructionsChangeMemoryOutputFlags :
    (∃ t, step ((at_ 3 [0x45, 0x00]).setReg .r0 1) = .next t ∧ t.memRead 255 ≠
      ((at_ 3 [0x45, 0x00]).setReg .r0 1).memRead 255) ∧
    (∃ t, step (at_ 0 [0x50, 0x00]) = .next t ∧ t.memRead 255 ≠ (at_ 0 [0x50, 0x00]).memRead 255) ∧
    (∃ t, step (at_ 0 [0x47, 0x00]) = .next t ∧ t.output ≠ (at_ 0 [0x47, 0x00]).output) ∧
    (∃ t, step (at_ 0 [0xA7, 0x00, 0x00]) = .next t ∧ t.fl ≠ (at_ 0 [0xA7, 0x00, 0x00]).fl) :=
  ⟨⟨_, rfl, by decide⟩, ⟨_, rfl, by decide⟩, ⟨_, rfl, by decide⟩, ⟨_, rfl, by decide⟩⟩

theorem witness_PushThenPopRestoresRegisters :
    let s := at_ 251 [0x45, 0x07, 0x46, 0x07]
    s.status = .running ∧ Reg.ofIndex 7 = some .r7 ∧ Reg.r7 ≠ .sp ∧ s.pc.toNat ≤ 251 ∧
    s.memRead s.pc = 0x45 ∧ s.memRead (s.pc + 1) = 7 ∧ s.memRead (s.pc + 2) = 0x46 ∧
    s.memRead (s.pc + 3) = 7 ∧ s.reg .sp - 1 ≠ s.pc + 2 ∧ s.reg .sp - 1 ≠ s.pc + 3 := by decide

theorem witness_RetReturnsAfterTheCall : Reg.ofIndex 7 = some .r7 ∧ (at_ 253 []).pc.toNat ≤ 253 ∧
    ∃ t, exec (.call 7) (at_ 253 []) = .next t ∧ (t.setPc 9).reg .sp = t.reg .sp ∧
      (t.setPc 9).memRead ((t.setPc 9).reg .sp) = t.memRead (t.reg .sp) :=
  ⟨rfl, by decide, _, rfl, rfl, rfl⟩

theorem witness_LoadThenPrintShowsTheDecimalString : (7 : Byte).toNat ≤ 7 ∧
    (at_ 250 []).pc.toNat ≤ 250 := by decide

theorem witness_LoadInstallsTheProgram : State.reset.status = .ready ∧
    ([] : List Byte).length ≤ 256 ∧ (List.replicate 256 (0xFF : Byte)).length ≤ 256 ∧
    256 < (List.replicate 257 (0xFF : Byte)).length ∧
    (0xFF : Byte).toNat < (List.replicate 256 (0xFF : Byte)).length ∧
    (List.replicate 255 (0xFF : Byte)).length ≤ (0xFF : Byte).toNat := by
  refine ⟨rfl, Nat.zero_le _, ?_, ?_, ?_, ?_⟩ <;> rw [List.length_replicate] <;> decide

theorem witness_WriteSetsOneCellOrIsRefused : State.reset.status = .ready ∧ 255 ≤ 255 ∧
    (255 < 256 ∨ 255 < 0) ∧ (255 < 0 ∨ 255 < 256) := by decide

theorem witness_ReadReturnsTheCell : State.reset.status ≠ .running ∧
    (State.reset.setStatus .halted).status ≠ .running ∧ (0 : Nat) ≤ 255 ∧ 255 < 256 := by decide

theorem witness_HostActsOnlyWhenAllowed : (at_ 0 []).status = .running ∧
    (State.reset.setStatus .halted).status = .halted ∧
    (∃ r, ((at_ 0 []).faultedWith .unknownOpcode 0).status = .faulted r) ∧
    State.reset.status = .ready :=
  ⟨rfl, rfl, ⟨_, rfl⟩, rfl⟩

theorem witness_RunStopsOnlyWhenHaltedOrFaulted : (at_ 0 [0x54, 0x00]).status = .running ∧
    (nextOf (step (at_ 0 [0x54, 0x00]))).isSome = true ∧ State.reset.status ≠ .running ∧
    (runFor 1 (at_ 0 [0x54, 0x00])).status = .running ∧
    (runFor 1 (at_ 0 [0x01])).status = .halted ∧
    (runFor 1 (at_ 0 [])).status =
      .faulted { cause := .unknownOpcode, addr := 0, info := 0 } := by decide

/-- PUSH and CALL answer at the end of their range; the fetching states are the state after with PC at
the stored byte, one below it and two below it; each kind of byte (unknown, HLT, another opcode). -/
theorem witness_StoredByteIsWhatIsFetched : Reg.ofIndex 6 = some .sp ∧
    (at_ 253 []).pc.toNat ≤ 253 ∧
    (∃ t, exec (.push 6) (at_ 253 []) = .next t ∧ (t.setPc 255).mem = t.mem ∧
      (t.setPc 255).pc = t.reg .sp ∧ (t.setPc 254).pc.toNat + 1 = (t.reg .sp).toNat ∧
      (t.setPc 253).pc.toNat + 2 = (t.reg .sp).toNat ∧ (t.setPc 255).status = .running) ∧
    (∃ t, exec (.call 6) (at_ 253 []) = .next t ∧ (t.setPc 255).pc = t.reg .sp) ∧
    lookupOpcode 0xFF = none ∧ lookupOpcode 0x11 = some .ret ∧
    (255 : Byte).toNat + Mnemonic.ret.format.operandBytes ≤ 255 :=
  ⟨rfl, by decide, ⟨_, rfl, rfl, rfl, rfl, rfl, rfl⟩, ⟨_, rfl, rfl⟩, rfl, rfl, by decide⟩

end Sys2Proof.Machine.Tests
end

/-! SUPPORT. Laws of the flags (10_state.md R15, R16, R23): who writes FL, who reads it, and that no
two flags are ever set together. -/

namespace Sys2Proof.Machine

/-! ### What an instruction writes to FL (R16) -/

/-- Raising a fault of the operands leaves FL. -/
theorem RaisedByOperands.fl_eq {s t : State} (h : RaisedByOperands s t) : t.fl = s.fl := by
  rcases h with rfl | ⟨_, _, rfl⟩ <;> rfl

/-- A conditional branch leaves FL. -/
theorem State.fl_eq_of_commit_branch {a : Byte} {taken : Bool} {s t : State}
    (h : s.commit (s.branch taken a) = .next t) : t.fl = s.fl := by
  rcases State.commit_branch_inv h with ⟨_, _, _, _, rfl⟩ | ⟨_, _, _, rfl⟩ | hr
  · rfl
  · rfl
  · exact hr.fl_eq

/-- Only CMP writes FL: the effects of every other instruction and of every fault leave it. -/
theorem exec_fl_eq_or_cmp {i : Instr} {s t : State} (h : exec i s = .next t) :
    t.fl = s.fl ∨ ∃ a b, i = .cmp a b := by
  cases i with
  | cmp a b => exact .inr ⟨a, b, rfl⟩
  | hlt => exact .inl (by simp [next_inj h])
  | ret => exact .inl (by simp [next_inj h])
  | ldi _ _ =>
    exact .inl ((exec_ldi_inv h).elim (fun ⟨_, _, _, e⟩ => by simp [e]) (·.fl_eq))
  | prn _ =>
    exact .inl ((exec_prn_inv h).elim (fun ⟨_, _, _, e⟩ => by simp [e]) (·.fl_eq))
  | add _ _ =>
    exact .inl ((exec_add_inv h).elim (fun ⟨_, _, _, _, _, e⟩ => by simp [e]) (·.fl_eq))
  | mul _ _ =>
    exact .inl ((exec_mul_inv h).elim (fun ⟨_, _, _, _, _, e⟩ => by simp [e]) (·.fl_eq))
  | push _ =>
    exact .inl ((exec_push_inv h).elim (fun ⟨_, _, _, e⟩ => by simp [e]) (·.fl_eq))
  | pop _ =>
    exact .inl ((exec_pop_inv h).elim (fun ⟨_, _, _, e⟩ => by simp [e]) (·.fl_eq))
  | call _ =>
    exact .inl ((exec_call_inv h).elim (fun ⟨_, _, _, e⟩ => by simp [e]) (·.fl_eq))
  | jmp _ =>
    exact .inl ((exec_jmp_inv h).elim (fun ⟨_, _, _, e⟩ => by simp [e]) (·.fl_eq))
  | jeq _ => exact .inl (State.fl_eq_of_commit_branch h)
  | jne _ => exact .inl (State.fl_eq_of_commit_branch h)

/-- CMP when every check passes. -/
theorem exec_cmp_ok {a b : Byte} {ra rb : Reg} {s : State} (ha : Reg.ofIndex a = some ra)
    (hb : Reg.ofIndex b = some rb) (hp : s.pc.toNat ≤ 252) :
    exec (.cmp a b) s = .next ((s.setFl (compareFlags (s.reg ra) (s.reg rb))).setPc
      (BitVec.ofNat 8 (s.pc.toNat + 3))) :=
  congrArg s.commit (State.aluPath_ok .cmp ha hb hp)

/-! ### What an instruction reads of FL (R16)

A meaning is a chain of checks that ends in the effects. Run from two states that differ in FL
alone, the checks answer the same, so two chains are related when their ends are. -/

/-- Two checked results are the same but for FL: one fault, or states that differ in FL alone. -/
inductive SameButFl : Check State → Check State → Prop where
  | ok (t : State) (g : Byte) : SameButFl (.ok t) (.ok (t.setFl g))
  | error (r : Raise) : SameButFl (.error r) (.error r)

/-- The same check before both. -/
theorem SameButFl.bind {α : Type} (c : Check α) {k k' : α → Check State}
    (h : ∀ x, SameButFl (k x) (k' x)) : SameButFl (c >>= k) (c >>= k') := by
  cases c with
  | ok x => exact h x
  | error r => exact .error r

/-- Committed, such results are next states that differ in FL alone. -/
theorem SameButFl.commit {c c' : Check State} (h : SameButFl c c') {s t : State} (f : Byte)
    (ht : s.commit c = .next t) : ∃ g, (s.setFl f).commit c' = .next (t.setFl g) := by
  cases h with
  | ok u g => exact ⟨g, by rw [next_inj ht]; rfl⟩
  | error r => exact ⟨f, by rw [next_inj ht]; rfl⟩

/-- The ALU path takes nothing from FL. -/
theorem State.aluPath_setFl (s : State) (f : Byte) (sel : Mnemonic) (a b : Byte) :
    SameButFl (s.aluPath sel a b) ((s.setFl f).aluPath sel a b) := by
  refine .bind (s.operandsRR a b) fun (ra, rb) => .bind (s.nextAddress 3) fun next => ?_
  show SameButFl (s.aluWrite sel ra (alu sel (s.reg ra) (s.reg rb)) >>= _)
    ((s.setFl f).aluWrite sel ra (alu sel (s.reg ra) (s.reg rb)) >>= _)
  cases alu sel (s.reg ra) (s.reg rb) with
  | result v => exact .ok _ f
  | flags v => exact .ok _ v
  | unsupported => exact .error _

/-- A conditional branch takes nothing from FL but whether it is taken. -/
theorem State.branch_setFl (s : State) (f : Byte) (taken : Bool) (a : Byte) :
    SameButFl (s.branch taken a) ((s.setFl f).branch taken a) := by
  refine .bind (s.operandR a) fun r => ?_
  cases taken with
  | true => exact .ok _ f
  | false => exact .bind (s.nextAddress 2) fun next => .ok _ f

/-- Another FL changes nothing of what an instruction answers but FL, unless the instruction is a
conditional branch and bit 0 differs. -/
theorem exec_setFl {i : Instr} {s t : State} {f : Byte}
    (hi : (∀ a, i ≠ .jeq a ∧ i ≠ .jne a) ∨ f.getLsbD 0 = s.fl.getLsbD 0)
    (h : exec i s = .next t) : ∃ g, exec i (s.setFl f) = .next (t.setFl g) := by
  cases i with
  | hlt => exact ⟨f, by rw [next_inj h]; rfl⟩
  | ret => exact ⟨f, by rw [next_inj h]; rfl⟩
  | ldi a _ =>
    exact SameButFl.commit
      (.bind (s.operandsRI a) fun _ => .bind (s.nextAddress 3) fun _ => .ok _ f) f h
  | prn a =>
    exact SameButFl.commit
      (.bind (s.operandR a) fun _ => .bind (s.nextAddress 2) fun _ => .ok _ f) f h
  | push a =>
    exact SameButFl.commit
      (.bind (s.operandR a) fun _ => .bind (s.nextAddress 2) fun _ => .ok _ f) f h
  | pop a =>
    exact SameButFl.commit
      (.bind (s.operandR a) fun _ => .bind (s.nextAddress 2) fun _ => .ok _ f) f h
  | call a =>
    exact SameButFl.commit
      (.bind (s.operandR a) fun _ => .bind (s.nextAddress 2) fun _ => .ok _ f) f h
  | jmp a => exact SameButFl.commit (.bind (s.operandR a) fun _ => .ok _ f) f h
  | add a b => exact (s.aluPath_setFl f .add a b).commit f h
  | mul a b => exact (s.aluPath_setFl f .mul a b).commit f h
  | cmp a b => exact (s.aluPath_setFl f .cmp a b).commit f h
  | jeq a =>
    have hE : (s.setFl f).flagE = s.flagE := hi.resolve_left fun hn => (hn a).1 rfl
    show ∃ g, (s.setFl f).commit ((s.setFl f).branch (s.setFl f).flagE a) = _
    rw [hE]
    exact (s.branch_setFl f s.flagE a).commit f h
  | jne a =>
    have hE : (s.setFl f).flagE = s.flagE := hi.resolve_left fun hn => (hn a).2 rfl
    show ∃ g, (s.setFl f).commit ((s.setFl f).branch (!(s.setFl f).flagE) a) = _
    rw [hE]
    exact (s.branch_setFl f (!s.flagE) a).commit f h

/-- Settles O20: the writers of FL by the inversion laws, its readers by relating the run from
another FL to the given one. -/
theorem flagsAreWrittenByCmpAndReadByBranches :
    Obligations.FlagsAreWrittenByCmpAndReadByBranches := by
  refine ⟨fun _ _ _ => exec_fl_eq_or_cmp, fun a b ra rb s f ha hb hp => ?_,
    fun i s t f hi h => ?_⟩
  · exact (exec_cmp_ok (s := s.setFl f) ha hb hp).trans (exec_cmp_ok ha hb hp).symm
  · obtain ⟨g, hg⟩ := exec_setFl hi h
    exact ⟨t.setFl g, hg, rfl, rfl, rfl, rfl, rfl⟩

/-! ### Legal flags (R15, R23) -/

theorem flagsLegal_compareFlags (va vb : Byte) : FlagsLegal (compareFlags va vb) := by
  unfold compareFlags
  split_ifs
  · exact .inr (.inl rfl)
  · exact .inr (.inr (.inl rfl))
  · exact .inr (.inr (.inr rfl))

/-- Legal flags hold no two of E, G and L. -/
theorem State.flags_exclusive {s : State} (h : FlagsLegal s.fl) :
    ¬ (s.flagE = true ∧ s.flagG = true) ∧ ¬ (s.flagE = true ∧ s.flagL = true) ∧
      ¬ (s.flagG = true ∧ s.flagL = true) := by
  unfold State.flagE State.flagG State.flagL
  rcases h with h | h | h | h <;> rw [h] <;> decide

/-- Every instruction keeps FL legal: it leaves FL or writes a comparison's flags. -/
theorem exec_flagsLegal {i : Instr} {s t : State} (hs : FlagsLegal s.fl)
    (h : exec i s = .next t) : FlagsLegal t.fl := by
  rcases exec_fl_eq_or_cmp h with e | ⟨a, b, rfl⟩
  · rwa [e]
  · rcases exec_cmp_inv h with ⟨ra, rb, _, _, _, rfl⟩ | hr
    · exact flagsLegal_compareFlags _ _
    · rwa [hr.fl_eq]

/-! ### What a step and the host's operations can do -/

/-- Everything a step that answers a next state can be: nothing done in Ready or Halted, the fetched
instruction run, or the fault of the fetch raised. -/
theorem step_inv {s t : State} (h : step s = .next t) :
    ((s.status = .ready ∨ s.status = .halted) ∧ t = s) ∨
      (s.status = .running ∧ ∃ i, s.fetchInstr = .ok i ∧ exec i s = .next t) ∨
      (s.status = .running ∧ ∃ f, s.fetchInstr = .error f ∧ t = s.raise f) := by
  unfold step at h
  cases hs : s.status with
  | ready => rw [hs] at h; exact .inl ⟨.inl rfl, next_inj h⟩
  | halted => rw [hs] at h; exact .inl ⟨.inr rfl, next_inj h⟩
  | faulted r => rw [hs] at h; cases h
  | running =>
    rw [hs] at h
    cases hf : s.fetchInstr with
    | ok i => rw [hf] at h; exact .inr (.inl ⟨rfl, i, rfl, h⟩)
    | error f => rw [hf] at h; exact .inr (.inr ⟨rfl, f, rfl, next_inj h⟩)

/-- The host's changes are allowed in Ready, and an error in every other status (R165). -/
theorem State.hostMayChange_cases (s : State) :
    (s.status = .ready ∧ s.hostMayChange = .ok ()) ∨
      (s.status ≠ .ready ∧ ∃ e, s.hostMayChange = .error e) := by
  unfold State.hostMayChange
  cases s.status with
  | ready => exact .inl ⟨rfl, rfl⟩
  | running => exact .inr ⟨by simp, _, rfl⟩
  | halted => exact .inr ⟨by simp, _, rfl⟩
  | faulted r => exact .inr ⟨by simp, _, rfl⟩

/-- A `load` that is carried out (R166). -/
theorem hostLoad_inv {program : List Byte} {s t : State} (h : hostLoad program s = .ok t) :
    s.status = .ready ∧ program.length ≤ 256 ∧ t = { s with mem := s.mem.putBytes 0 program } := by
  unfold hostLoad at h
  rcases s.hostMayChange_cases with ⟨hr, e⟩ | ⟨-, _, e⟩
  · rw [e] at h
    change (if program.length > topAddress + 1 then _ else _) = _ at h
    split at h
    · cases h
    · next hl =>
      unfold topAddress at hl
      exact ⟨hr, by omega, (Except.ok.inj h).symm⟩
  · rw [e] at h
    cases h

/-- A `write` that is carried out (R168). -/
theorem hostWrite_inv {address value : Nat} {s t : State} (h : hostWrite address value s = .ok t) :
    s.status = .ready ∧ address ≤ 255 ∧ value ≤ 255 ∧
      t = { s with mem := s.mem.writeNat address (BitVec.ofNat 8 value) } := by
  unfold hostWrite at h
  rcases s.hostMayChange_cases with ⟨hr, e⟩ | ⟨-, _, e⟩
  · rw [e] at h
    change (if address > topAddress then _ else if value > 255 then _ else _) = _ at h
    split_ifs at h with ha hv
    unfold topAddress at ha
    exact ⟨hr, by omega, by omega, (Except.ok.inj h).symm⟩
  · rw [e] at h
    cases h

/-- A `run` that is carried out (R169). -/
theorem hostRun_inv {s t : State} (h : hostRun s = .ok t) :
    s.status = .ready ∧ t = s.setStatus .running := by
  unfold hostRun at h
  rcases s.hostMayChange_cases with ⟨hr, e⟩ | ⟨-, _, e⟩
  · rw [e] at h
    exact ⟨hr, (Except.ok.inj h).symm⟩
  · rw [e] at h
    cases h

/-! ### The stated invariants (R23) -/

theorem step_flagsLegal {s t : State} (hs : FlagsLegal s.fl) (h : step s = .next t) :
    FlagsLegal t.fl := by
  rcases step_inv h with ⟨-, rfl⟩ | ⟨-, i, -, hi⟩ | ⟨-, f, -, rfl⟩
  · exact hs
  · exact exec_flagsLegal hs hi
  · exact hs

/-- FL is legal at reset, the host's operations leave it or reset it, and a step keeps it legal. -/
theorem Reachable.flagsLegal {s : State} (h : Reachable s) : FlagsLegal s.fl := by
  induction h with
  | reset => exact .inl rfl
  | hostReset => exact .inl rfl
  | load _ ht ih =>
    obtain ⟨-, -, rfl⟩ := hostLoad_inv ht
    exact ih
  | write _ ht ih =>
    obtain ⟨-, -, -, rfl⟩ := hostWrite_inv ht
    exact ih
  | run _ ht ih =>
    obtain ⟨-, rfl⟩ := hostRun_inv ht
    exact ih
  | step _ ht ih => exact step_flagsLegal ih ht

/-- Settles O14: the flags by induction over the ways to reach a state; the values because each is a
byte. -/
theorem reachableStatesMeetStatedInvariants : Obligations.ReachableStatesMeetStatedInvariants :=
  fun s h => ⟨Nat.le_of_lt_succ s.pc.isLt, fun q => Nat.le_of_lt_succ (s.reg q).isLt,
    fun x => Nat.le_of_lt_succ (s.memRead x).isLt, State.flags_exclusive h.flagsLegal⟩

end Sys2Proof.Machine

/-! SUPPORT. Laws of the opcode byte (30_encoding.md R51, R52, R57): the lookup inverts the map, and
bits 7:6 and bit 5 of a known byte give the instruction's length and its ALU routing. -/

namespace Sys2Proof

/-- A byte that is no value of the map is unknown. -/
theorem lookupOpcode_eq_none {op : Byte} :
    lookupOpcode op = none ↔ ∀ m, op ≠ Config.opcodeMap m := by
  simp only [Option.eq_none_iff_forall_ne_some, ne_eq, lookupOpcode_eq_some]

/-- No operation has two opcode bytes. -/
theorem lookupOpcode_inj {op op' : Byte} {m : Mnemonic} (h : lookupOpcode op = some m)
    (h' : lookupOpcode op' = some m) : op = op' :=
  (lookupOpcode_eq_some.1 h).trans (lookupOpcode_eq_some.1 h').symm

/-- The decoder's N output is the opcode byte's quotient by 64: bits 7:6 are the topmost two. -/
theorem operandCount_eq_div (op : Byte) : operandCount op = op.toNat / 64 := by
  have h : op.toNat / 64 < 4 := by have := op.isLt; omega
  rw [operandCount, BitVec.extractLsb'_toNat, Nat.shiftRight_eq_div_pow]
  exact Nat.mod_eq_of_lt h

theorem Instr.length_operands (i : Instr) : i.operands.length = i.mnemonic.format.operandBytes := by
  cases i <;> rfl

/-- An encoding is as long as its opcode byte declares. -/
theorem length_encode (i : Instr) :
    (encode i).length = instrLength (Config.opcodeMap i.mnemonic) := by
  rw [encode, List.length_cons, i.length_operands, instrLength, operandCount_opcodeMap,
    Nat.add_comm]

/-- The operations routed to the ALU. -/
theorem aluRouted_opcodeMap (m : Mnemonic) :
    aluRouted (Config.opcodeMap m) = true ↔ m = .add ∨ m = .mul ∨ m = .cmp := by
  cases m <;> decide

/-- Settles O4: the lookup inverts the map, which gives the first clause's operation, the unknown
bytes and the uniqueness; the length and the ALU routing are read off bits 7:6 and bit 5. -/
theorem opcodeLookupIsByWholeByte : Obligations.OpcodeLookupIsByWholeByte := by
  refine ⟨fun i op hop => ?_, fun _ => lookupOpcode_eq_none.2,
    fun _ _ _ hne h h' => hne (lookupOpcode_inj h h')⟩
  subst hop
  refine ⟨lookupOpcode_opcodeMap _, ?_, rfl, aluRouted_opcodeMap _⟩
  rw [length_encode, instrLength, operandCount_eq_div]

end Sys2Proof

/-! SUPPORT. Laws of the comparison (42_alu.md R90, R94, R96): the flags byte by the unsigned
relation of the two values, and the flags as bits of FL. -/

namespace Sys2Proof.Machine

theorem compareFlags_of_eq {va vb : Byte} (h : va.toNat = vb.toNat) :
    compareFlags va vb = flagsEqual :=
  if_pos (BitVec.eq_of_toNat_eq h)

theorem compareFlags_of_gt {va vb : Byte} (h : va.toNat > vb.toNat) :
    compareFlags va vb = flagsGreater := by
  have hne : va ≠ vb := fun e => absurd (congrArg BitVec.toNat e) (by omega)
  rw [compareFlags, if_neg hne, if_pos h]

theorem compareFlags_of_lt {va vb : Byte} (h : va.toNat < vb.toNat) :
    compareFlags va vb = flagsLess := by
  have hne : va ≠ vb := fun e => absurd (congrArg BitVec.toNat e) (by omega)
  rw [compareFlags, if_neg hne, if_neg (by omega)]

/-- Settles O18: ADD and MUL are the ALU's own equations, CMP is the flags byte of the comparison by
the relation of the values. -/
theorem aluIsAFunctionOfItsOperands : Obligations.AluIsAFunctionOfItsOperands :=
  fun _ _ => ⟨rfl, rfl, fun h => congrArg AluAnswer.flags (compareFlags_of_eq h),
    fun h => congrArg AluAnswer.flags (compareFlags_of_gt h),
    fun h => congrArg AluAnswer.flags (compareFlags_of_lt h)⟩

/-- FL and the flags it holds, its bits 0, 1 and 2 (R15). -/
theorem State.fl_and_flags_of_fl_eq {t : State} {f : Byte} (h : t.fl = f) :
    t.fl = f ∧ t.flagE = f.getLsbD 0 ∧ t.flagG = f.getLsbD 1 ∧ t.flagL = f.getLsbD 2 :=
  h ▸ ⟨rfl, rfl, rfl, rfl⟩

/-- Settles O19: CMP leaves the comparison's flags byte in FL, and the bits of each such byte are
its one flag. -/
theorem compareSetsExactlyOneFlag : Obligations.CompareSetsExactlyOneFlag := by
  intro a b ra rb s ha hb hp
  refine ⟨_, exec_cmp_ok ha hb hp, fun h => ?_, fun h => ?_, fun h => ?_⟩
  · exact State.fl_and_flags_of_fl_eq (compareFlags_of_eq h)
  · exact State.fl_and_flags_of_fl_eq (compareFlags_of_gt h)
  · exact State.fl_and_flags_of_fl_eq (compareFlags_of_lt h)

end Sys2Proof.Machine

/-! SUPPORT. Laws of the host's write (80_interfaces.md R165, R168): when it is carried out, and what
it leaves. -/

namespace Sys2Proof.Machine

/-- In Ready, a `write` in range is carried out. -/
theorem hostWrite_ok {address value : Nat} {s : State} (hr : s.status = .ready)
    (ha : address ≤ 255) (hv : value ≤ 255) :
    hostWrite address value s =
      .ok { s with mem := s.mem.writeNat address (BitVec.ofNat 8 value) } := by
  have hm : s.hostMayChange = .ok () := by rw [State.hostMayChange, hr]
  rw [hostWrite, hm]
  exact (if_neg (Nat.not_lt.2 ha)).trans (if_neg (Nat.not_lt.2 hv))

/-- A `write` of an address or a value out of range is refused, in every status. -/
theorem hostWrite_error_of_out_of_range {address value : Nat} {s : State}
    (h : 255 < address ∨ 255 < value) : ∃ e, hostWrite address value s = .error e := by
  cases hw : hostWrite address value s with
  | error e => exact ⟨e, rfl⟩
  | ok t =>
    obtain ⟨-, ha, hv, -⟩ := hostWrite_inv hw
    omega

/-- Settles O52: in range the write is carried out, and the cells are those of a read after a write;
out of range it cannot be carried out. -/
theorem writeSetsOneCellOrIsRefused : Obligations.WriteSetsOneCellOrIsRefused := by
  refine fun address value s hr => ⟨fun ha hv => ?_, hostWrite_error_of_out_of_range⟩
  exact ⟨_, hostWrite_ok hr ha hv, fun x => s.mem.readNat_writeNat address x.toNat _,
    rfl, rfl, rfl, rfl, rfl⟩

end Sys2Proof.Machine

/-! SUPPORT. The decoder and the encoder are inverse (30_encoding.md R50, R52, R57). -/

namespace Sys2Proof

/-- An instruction's operand bytes, then anything, decode under its opcode byte to it. -/
theorem decodeAfter_operands (i : Instr) (rest : List Byte) :
    decodeAfter (Config.opcodeMap i.mnemonic) (i.operands ++ rest) = .ok (i, rest) := by
  rw [decodeAfter_known]
  cases i <;> rfl

theorem decode_encode (i : Instr) (rest : List Byte) :
    decode (encode i ++ rest) = .ok (i, rest) :=
  decodeAfter_operands i rest

/-- The bytes of an assembled instruction: its opcode byte, and as many of the operand bytes as its
format has. -/
theorem encode_assemble (m : Mnemonic) (a b : Byte) :
    encode (assemble m a b) = Config.opcodeMap m :: [a, b].take m.format.operandBytes := by
  cases m <;> rfl

/-- What decodes after a known opcode byte is assembled from the operand bytes the format declares,
and they stand before what is left over. -/
theorem decodeAfter_known_inv {m : Mnemonic} {tail rest : List Byte} {i : Instr}
    (h : decodeAfter (Config.opcodeMap m) tail = .ok (i, rest)) :
    ∃ a b, i = assemble m a b ∧ tail = [a, b].take m.format.operandBytes ++ rest := by
  rw [decodeAfter_known] at h
  split at h
  · next hn =>
    cases h
    exact ⟨0, 0, rfl, by rw [hn]; rfl⟩
  · next a _ hn =>
    cases h
    exact ⟨a, 0, rfl, by rw [hn]; rfl⟩
  · next a b _ h0 h1 =>
    cases h
    have hn : 2 ≤ m.format.operandBytes := (Nat.two_le_iff _).2 ⟨h0, h1⟩
    exact ⟨a, b, rfl, by rw [List.take_of_length_le hn]; rfl⟩
  · cases h
  · cases h

theorem decode_eq_ok {bytes rest : List Byte} {i : Instr} (h : decode bytes = .ok (i, rest)) :
    bytes = encode i ++ rest := by
  cases bytes with
  | nil => cases h
  | cons op tail =>
    change decodeAfter op tail = .ok (i, rest) at h
    cases hm : lookupOpcode op with
    | none =>
      rw [decodeAfter_unknown hm] at h
      cases h
    | some m =>
      obtain rfl := lookupOpcode_eq_some.1 hm
      obtain ⟨a, b, rfl, rfl⟩ := decodeAfter_known_inv h
      rw [encode_assemble]
      rfl

/-- Settles O1: the opcode byte is looked up in the map it comes from, and the operand bytes are
taken as the format declares. -/
theorem decodeOfEncodeIsTheInstruction : Obligations.DecodeOfEncodeIsTheInstruction :=
  decode_encode

/-- Settles O2: a byte that is looked up is the byte of the map, and each byte taken after it is an
operand byte of the instruction. -/
theorem decodedBytesAreTheEncoding : Obligations.DecodedBytesAreTheEncoding :=
  fun _ _ _ => decode_eq_ok

/-- Settles O3: each word is an encoding with nothing left over. -/
theorem writtenOutWordsDecode : Obligations.WrittenOutWordsDecode :=
  ⟨decode_encode .hlt [], decode_encode (.ldi 6 0xF0) [], decode_encode (.prn 3) [],
    decode_encode (.cmp 1 4) [], decode_encode (.call 1) [], decode_encode (.jeq 5) [], rfl⟩

end Sys2Proof

/-! SUPPORT. Laws of the faults (60_exceptions.md R121 to R126): which fault an instruction raises,
as a function of PC, its bytes and the E flag alone. -/

namespace Sys2Proof.Machine

/-! ### The fault of an instruction (R73, R74, R77, R126) -/

/-- The first fault condition, in R126's order, of the operation `m` with operand bytes `a` and `b`
at `pc`, where `e` is the E flag; `none` when every check passes. -/
def operandFault (pc : Byte) (e : Bool) (m : Mnemonic) (a b : Byte) : Option Raise :=
  if pc.toNat + m.format.operandBytes > 255 then
    some { cause := .addressOutOfRange, info := 256 }
  else if m.format ≠ .f0 ∧ 7 < a.toNat then
    some { cause := .registerIndexOutOfRange, info := a.toNat }
  else if m.format = .f2rr ∧ 7 < b.toNat then
    some { cause := .registerIndexOutOfRange, info := b.toNat }
  else if checksNextAddress e m = true ∧ pc.toNat + (1 + m.format.operandBytes) > 255 then
    some { cause := .addressOutOfRange, info := 256 }
  else none

section
variable {pc : Byte} {e : Bool} {m : Mnemonic} {a b : Byte}

theorem operandFault_of_operand_address (h : 255 < pc.toNat + m.format.operandBytes) :
    operandFault pc e m a b = some { cause := .addressOutOfRange, info := 256 } := by
  rw [operandFault, if_pos h]

theorem operandFault_of_byte1 (h : pc.toNat + m.format.operandBytes ≤ 255) (hm : m.format ≠ .f0)
    (ha : 7 < a.toNat) :
    operandFault pc e m a b = some { cause := .registerIndexOutOfRange, info := a.toNat } := by
  rw [operandFault, if_neg (by omega), if_pos ⟨hm, ha⟩]

theorem operandFault_of_byte2 (h : pc.toNat + m.format.operandBytes ≤ 255) (ha : a.toNat ≤ 7)
    (hm : m.format = .f2rr) (hb : 7 < b.toNat) :
    operandFault pc e m a b = some { cause := .registerIndexOutOfRange, info := b.toNat } := by
  rw [operandFault, if_neg (by omega), if_neg (by omega), if_pos ⟨hm, hb⟩]

theorem operandFault_of_next_address (h : pc.toNat + m.format.operandBytes = 255)
    (ha : m.format ≠ .f0 → a.toNat ≤ 7) (hb : m.format = .f2rr → b.toNat ≤ 7)
    (hc : checksNextAddress e m = true) :
    operandFault pc e m a b = some { cause := .addressOutOfRange, info := 256 } := by
  rw [operandFault, if_neg (by omega), if_neg fun c => absurd c.2 (Nat.not_lt.2 (ha c.1)),
    if_neg fun c => absurd c.2 (Nat.not_lt.2 (hb c.1)), if_pos ⟨hc, by omega⟩]

theorem operandFault_eq_none (h : pc.toNat + m.format.operandBytes ≤ 255)
    (ha : m.format ≠ .f0 → a.toNat ≤ 7) (hb : m.format = .f2rr → b.toNat ≤ 7)
    (hc : checksNextAddress e m = true → pc.toNat + (1 + m.format.operandBytes) ≤ 255) :
    operandFault pc e m a b = none := by
  rw [operandFault, if_neg (by omega), if_neg fun c => absurd c.2 (Nat.not_lt.2 (ha c.1)),
    if_neg fun c => absurd c.2 (Nat.not_lt.2 (hb c.1)),
    if_neg fun c => absurd c.2 (Nat.not_lt.2 (hc c.1))]

end

theorem Reg.toNat_le_of_ofIndex {b : Byte} {r : Reg} (h : Reg.ofIndex b = some r) :
    b.toNat ≤ 7 := by
  by_contra hc
  rw [Reg.ofIndex_eq_none.2 (by omega)] at h
  cases h

/-- The checks raise the fault given; without one they pass, to a state that keeps the status. -/
def ChecksFor (s : State) (c : Check State) : Option Raise → Prop
  | some f => c = .error f
  | none => ∃ t, c = .ok t ∧ t.status = s.status

theorem ChecksFor.of_error {s : State} {c : Check State} {f : Raise} {g : Option Raise}
    (hc : c = .error f) (hg : g = some f) : ChecksFor s c g := hg ▸ hc

theorem ChecksFor.of_ok {s t : State} {c : Check State} {g : Option Raise}
    (hc : c = .ok t) (ht : t.status = s.status) (hg : g = none) : ChecksFor s c g :=
  hg ▸ ⟨t, hc, ht⟩

/-- The checks of a sequential instruction with one register operand. -/
theorem operandR_next_checks {s : State} {m : Mnemonic} (a b : Byte) {k : Reg → Byte → State}
    (hm : m.format = .f1r) (hn : checksNextAddress s.flagE m = true)
    (hk : ∀ r next, (k r next).status = s.status) :
    ChecksFor s (do let r ← s.operandR a; let next ← s.nextAddress 2; .ok (k r next))
      (operandFault s.pc s.flagE m a b) := by
  have h1 : m.format.operandBytes = 1 := by rw [hm]; rfl
  have hb : m.format = .f2rr → b.toNat ≤ 7 := by simp [hm]
  rcases s.operandR_next_cases a (fun r next => .ok (k r next)) with
    ⟨r, ha, hp, e⟩ | ⟨hp, e⟩ | ⟨hp, ha, e⟩ | ⟨hp, ha, e⟩
  · exact .of_ok e (hk _ _) (operandFault_eq_none (by omega)
      (fun _ => Reg.toNat_le_of_ofIndex ha) hb (by omega))
  · exact .of_error e (operandFault_of_operand_address (by omega))
  · exact .of_error e (operandFault_of_byte1 (by omega) (by simp [hm]) ha)
  · exact .of_error e (operandFault_of_next_address (by omega) (fun _ => ha) hb hn)

/-- The checks of LDI. -/
theorem operandsRI_next_checks {s : State} (a b : Byte) {k : Reg → Byte → State}
    (hk : ∀ r next, (k r next).status = s.status) :
    ChecksFor s (do let r ← s.operandsRI a; let next ← s.nextAddress 3; .ok (k r next))
      (operandFault s.pc s.flagE .ldi a b) := by
  have h2 : Mnemonic.ldi.format.operandBytes = 2 := rfl
  rcases s.operandsRI_next_cases a (fun r next => .ok (k r next)) with
    ⟨r, ha, hp, e⟩ | ⟨hp, e⟩ | ⟨hp, ha, e⟩ | ⟨hp, ha, e⟩
  · exact .of_ok e (hk _ _) (operandFault_eq_none (by omega)
      (fun _ => Reg.toNat_le_of_ofIndex ha) nofun (by omega))
  · exact .of_error e (operandFault_of_operand_address (by omega))
  · exact .of_error e (operandFault_of_byte1 (by omega) nofun ha)
  · exact .of_error e (operandFault_of_next_address (by omega) (fun _ => ha) nofun rfl)

/-- The ALU answers ADD, MUL and CMP, and what is written of its answer keeps the status. -/
theorem aluWrite_keeps_status {m : Mnemonic} (hm : m.format = .f2rr) (s : State) (ra rb : Reg)
    (next : Byte) :
    ∃ t, (do let t ← s.aluWrite m ra (alu m (s.reg ra) (s.reg rb)); .ok (t.setPc next)) =
        (.ok t : Check State) ∧ t.status = s.status := by
  cases m with
  | add | mul | cmp => exact ⟨_, rfl, rfl⟩
  | hlt | ldi | prn | push | pop | call | ret | jmp | jeq | jne => cases hm

/-- The checks of ADD, MUL and CMP. -/
theorem aluPath_checks {s : State} {m : Mnemonic} (a b : Byte) (hm : m.format = .f2rr)
    (hn : checksNextAddress s.flagE m = true) :
    ChecksFor s (s.aluPath m a b) (operandFault s.pc s.flagE m a b) := by
  have h2 : m.format.operandBytes = 2 := by rw [hm]; rfl
  have h0 : m.format ≠ .f0 := by simp [hm]
  rcases s.aluPath_cases m a b with
    ⟨ra, rb, ha, hb, hp, e⟩ | ⟨hp, e⟩ | ⟨hp, ha, e⟩ | ⟨hp, ha, hb, e⟩ | ⟨hp, ha, hb, e⟩
  · obtain ⟨t, ht, hs⟩ := aluWrite_keeps_status hm s ra rb (BitVec.ofNat 8 (s.pc.toNat + 3))
    exact .of_ok (e.trans ht) hs (operandFault_eq_none (by omega)
      (fun _ => Reg.toNat_le_of_ofIndex ha) (fun _ => Reg.toNat_le_of_ofIndex hb) (by omega))
  · exact .of_error e (operandFault_of_operand_address (by omega))
  · exact .of_error e (operandFault_of_byte1 (by omega) h0 ha)
  · exact .of_error e (operandFault_of_byte2 (by omega) ha hm hb)
  · exact .of_error e (operandFault_of_next_address (by omega) (fun _ => ha) (fun _ => hb) hn)

/-- The checks of JEQ and JNE. -/
theorem branch_checks {s : State} {m : Mnemonic} {taken : Bool} (a b : Byte)
    (hm : m.format = .f1r) (hn : checksNextAddress s.flagE m = !taken) :
    ChecksFor s (s.branch taken a) (operandFault s.pc s.flagE m a b) := by
  have h1 : m.format.operandBytes = 1 := by rw [hm]; rfl
  have hb : m.format = .f2rr → b.toNat ≤ 7 := by simp [hm]
  rcases s.branch_cases taken a with
    ⟨r, ha, hp, ht, e⟩ | ⟨ha, hp, ht, e⟩ | ⟨hp, e⟩ | ⟨hp, ha, e⟩ | ⟨hp, ha, ht, e⟩
  · exact .of_ok e rfl (operandFault_eq_none (by omega)
      (fun _ => Reg.toNat_le_of_ofIndex ha) hb (by simp [hn, ht]))
  · exact .of_ok e rfl (operandFault_eq_none (by omega) (fun _ => ha) hb (by omega))
  · exact .of_error e (operandFault_of_operand_address (by omega))
  · exact .of_error e (operandFault_of_byte1 (by omega) (by simp [hm]) ha)
  · exact .of_error e (operandFault_of_next_address (by omega) (fun _ => ha) hb (by simp [hn, ht]))

/-- The checks of JMP. -/
theorem jmp_checks {s : State} (a b : Byte) :
    ChecksFor s (do let r ← s.operandR a; .ok (s.setPc (s.reg r)))
      (operandFault s.pc s.flagE .jmp a b) := by
  have h1 : Mnemonic.jmp.format.operandBytes = 1 := rfl
  rcases s.operandR_cases a with ⟨r, ha, hp, e⟩ | ⟨hp, e⟩ | ⟨hp, ha, e⟩
  · exact .of_ok (t := s.setPc (s.reg r)) (by rw [e]; rfl) rfl (operandFault_eq_none (by omega)
      (fun _ => Reg.toNat_le_of_ofIndex ha) nofun nofun)
  · exact .of_error (by rw [e]; rfl) (operandFault_of_operand_address (by omega))
  · exact .of_error (by rw [e]; rfl) (operandFault_of_byte1 (by omega) nofun ha)

/-- The outcome is the fault given, raised in `s`; without one it is a next state that keeps the
status, or HLT's. -/
def AnswersWith (s : State) (m : Mnemonic) (o : Outcome) : Option Raise → Prop
  | some f => o = .next (s.raise f)
  | none => ∃ t, o = .next t ∧ (t.status = s.status ∨ m = .hlt ∧ t = s.setStatus .halted)

theorem ChecksFor.answersWith {s : State} {c : Check State} {g : Option Raise}
    (h : ChecksFor s c g) (m : Mnemonic) : AnswersWith s m (s.commit c) g := by
  cases g with
  | some f =>
    obtain rfl : c = .error f := h
    rfl
  | none =>
    obtain ⟨t, rfl, ht⟩ := h
    exact ⟨t, rfl, .inl ht⟩

/-- Everything an instruction can answer: its fault, or a next state that is not Faulted. -/
theorem exec_answersWith (m : Mnemonic) (a b : Byte) (s : State) :
    AnswersWith s m (exec (assemble m a b) s) (operandFault s.pc s.flagE m a b) := by
  have f0 : ∀ m : Mnemonic, m.format = .f0 → checksNextAddress s.flagE m = false →
      operandFault s.pc s.flagE m a b = none := fun m hm hc => by
    have : m.format.operandBytes = 0 := by rw [hm]; rfl
    exact operandFault_eq_none (by omega) (absurd hm) (by simp [hm]) (by simp [hc])
  cases m with
  | hlt => rw [f0 .hlt rfl rfl]; exact ⟨_, rfl, .inr ⟨rfl, rfl⟩⟩
  | ret => rw [f0 .ret rfl rfl]; exact ⟨_, rfl, .inl rfl⟩
  | ldi =>
    refine ChecksFor.answersWith ?_ _
    exact operandsRI_next_checks a b fun _ _ => rfl
  | prn | push | pop | call =>
    refine ChecksFor.answersWith ?_ _
    exact operandR_next_checks a b rfl rfl fun _ _ => rfl
  | add | mul | cmp => exact (aluPath_checks a b rfl rfl).answersWith _
  | jmp => exact (jmp_checks a b).answersWith _
  | jeq => exact (branch_checks a b rfl rfl).answersWith _
  | jne => exact (branch_checks a b rfl (Bool.not_not _).symm).answersWith _

end Sys2Proof.Machine

/-! SUPPORT. What a step of a Running engine answers (40_engine_hlt.md R70 to R80, 60_exceptions.md
R121 to R126). -/

namespace Sys2Proof.Machine

/-! ### The step of a known and of an unknown opcode byte -/

theorem step_of_unknown {s : State} (hr : s.status = .running)
    (h : lookupOpcode (s.memRead s.pc) = none) :
    step s = .next (s.raise { cause := .unknownOpcode, info := (s.memRead s.pc).toNat }) := by
  rw [step_running hr]
  rcases s.fetchInstr_cases with ⟨-, e⟩ | ⟨m, hm, -⟩ | ⟨m, hm, -⟩
  · rw [e]
  · cases h.symm.trans hm
  · cases h.symm.trans hm

/-- A step with all its bytes in memory is exec of the instruction they make. -/
theorem step_of_lookup {s : State} {m : Mnemonic} (hr : s.status = .running)
    (h : lookupOpcode (s.memRead s.pc) = some m) (hp : s.pc.toNat + m.format.operandBytes ≤ 255) :
    step s = exec (assemble m (s.memRead (s.pc + 1)) (s.memRead (s.pc + 2))) s := by
  rw [step_running hr]
  rcases s.fetchInstr_cases with ⟨hn, -⟩ | ⟨m', hm, hp', -⟩ | ⟨m', hm, -, e⟩
  · cases h.symm.trans hn
  · cases h.symm.trans hm
    omega
  · cases h.symm.trans hm
    rw [e]

/-- A step at a known opcode raises the instruction's fault; the fetch makes the first check itself,
with the same fault. -/
theorem step_answersWith {s : State} {m : Mnemonic} (hr : s.status = .running)
    (h : lookupOpcode (s.memRead s.pc) = some m) :
    AnswersWith s m (step s)
      (operandFault s.pc s.flagE m (s.memRead (s.pc + 1)) (s.memRead (s.pc + 2))) := by
  by_cases hp : s.pc.toNat + m.format.operandBytes ≤ 255
  · rw [step_of_lookup hr h hp]
    exact exec_answersWith ..
  · rw [operandFault_of_operand_address (by omega), step_running hr]
    rcases s.fetchInstr_cases with ⟨hn, -⟩ | ⟨m', -, -, e⟩ | ⟨m', hm, hp', -⟩
    · cases h.symm.trans hn
    · rw [e]
      rfl
    · cases h.symm.trans hm
      omega

/-- Settles O6: the fetch reads the same bytes and decodes them, and the step runs what it gives. -/
theorem stepRunsTheDecodedInstruction : Obligations.StepRunsTheDecodedInstruction := by
  intro s i rest hr hd
  have hf : s.fetchInstr = .ok i := by
    rw [State.bytesFrom_pc] at hd
    change decodeAfter s.fetchOpcode s.fetchOperands = .ok (i, rest) at hd
    rw [State.fetchInstr, hd]
  rw [step_running hr, hf]

/-- Settles O9: the step by the status alone. -/
theorem engineStepsOnlyWhileRunning : Obligations.EngineStepsOnlyWhileRunning :=
  fun s => ⟨fun h => by rw [step, h], fun h => by rw [step, h], fun r h => by rw [step, h]⟩

/-- Settles O8: an unknown byte is found by the lookup; from there on the checks of the instruction
are the chain, and passed they leave the engine Running or, for HLT, Halted. -/
theorem checksAreMadeInOrder : Obligations.ChecksAreMadeInOrder := by
  intro s hr
  cases hm : lookupOpcode (s.memRead s.pc) with
  | none => exact step_of_unknown hr hm
  | some m =>
    have h := step_answersWith hr hm
    unfold operandFault at h
    dsimp only
    split_ifs at h ⊢
    · exact h
    · exact h
    · exact h
    · exact h
    · obtain ⟨t, ht, hs⟩ := h
      refine ⟨t, ht, fun r hf => ?_⟩
      rcases hs with hs | ⟨-, rfl⟩
      · cases hr.symm.trans (hs.symm.trans hf)
      · cases hf

/-! ### The bytes that are no opcode (R58, R59) -/

theorem Mnemonic.mem_all (m : Mnemonic) : m ∈ Mnemonic.all := by cases m <;> decide

/-- No known opcode byte declares three operand bytes. -/
theorem opcodeMap_lt (m : Mnemonic) : (Config.opcodeMap m).toNat < 0xC0 := by cases m <;> decide

/-- Settles O5: the known bytes are the map's values, all below 0xC0, and the fetch raises the fault
of any other. -/
theorem unknownOpcodeFaults : Obligations.UnknownOpcodeFaults := by
  refine ⟨fun op => ?_, fun op h => ?_, fun s hr h => step_of_unknown hr h⟩
  · change _ ↔ op ∉ Mnemonic.all.map Config.opcodeMap
    rw [lookupOpcode_eq_none]
    simp [Mnemonic.mem_all, eq_comm]
  · rw [lookupOpcode_eq_none]
    rintro m rfl
    have := opcodeMap_lt m
    omega

/-! ### The faults of a step (R121, R123, R124) -/

/-- What a step of the Running state `s` can raise: each cause with the `info` R121 gives it. -/
inductive State.CanRaise (s : State) : Raise → Prop where
  | unknown (h : lookupOpcode (s.memRead s.pc) = none) :
      s.CanRaise { cause := .unknownOpcode, info := (s.memRead s.pc).toNat }
  | address : s.CanRaise { cause := .addressOutOfRange, info := 256 }
  | byte1 (h : 7 < (s.memRead (s.pc + 1)).toNat) :
      s.CanRaise { cause := .registerIndexOutOfRange, info := (s.memRead (s.pc + 1)).toNat }
  | byte2 {m : Mnemonic} (h : lookupOpcode (s.memRead s.pc) = some m) (hm : m.format = .f2rr)
      (h1 : (s.memRead (s.pc + 1)).toNat ≤ 7) (h2 : 7 < (s.memRead (s.pc + 2)).toNat) :
      s.CanRaise { cause := .registerIndexOutOfRange, info := (s.memRead (s.pc + 2)).toNat }

theorem State.canRaise_of_operandFault {s : State} {m : Mnemonic} {f : Raise}
    (h : lookupOpcode (s.memRead s.pc) = some m)
    (hf : operandFault s.pc s.flagE m (s.memRead (s.pc + 1)) (s.memRead (s.pc + 2)) = some f) :
    s.CanRaise f := by
  unfold operandFault at hf
  split_ifs at hf with _ h1 h2 _ <;> cases hf
  · exact .address
  · exact .byte1 h1.2
  · refine .byte2 h h2.1 (Nat.le_of_not_lt fun hc => h1 ⟨?_, hc⟩) h2.2
    simp [h2.1]
  · exact .address

/-- A step of a Running engine raises one of its faults, or executes the instruction at PC, which
leaves it Running or is HLT. -/
theorem step_running_cases {s : State} (hr : s.status = .running) :
    (∃ f, s.CanRaise f ∧ step s = .next (s.raise f)) ∨
      ∃ t, step s = .next t ∧
        (t.status = .running ∨
          lookupOpcode (s.memRead s.pc) = some .hlt ∧ t = s.setStatus .halted) := by
  cases hm : lookupOpcode (s.memRead s.pc) with
  | none => exact .inl ⟨_, .unknown hm, step_of_unknown hr hm⟩
  | some m =>
    have h := step_answersWith hr hm
    cases hf : operandFault s.pc s.flagE m (s.memRead (s.pc + 1)) (s.memRead (s.pc + 2)) with
    | some f =>
      rw [hf] at h
      exact .inl ⟨f, s.canRaise_of_operandFault hm hf, h⟩
    | none =>
      rw [hf] at h
      obtain ⟨t, ht, hs | ⟨rfl, rfl⟩⟩ := h
      · exact .inr ⟨t, ht, .inl (hs.trans hr)⟩
      · exact .inr ⟨_, ht, .inr ⟨rfl, rfl⟩⟩

/-- A step that ends Faulted took one of the faults, and nothing else. -/
theorem step_faulted_inv {s t : State} {r : FaultRecord} (hr : s.status = .running)
    (h : step s = .next t) (ht : t.status = .faulted r) :
    ∃ f, s.CanRaise f ∧ t = s.raise f ∧ r = { cause := f.cause, addr := s.pc, info := f.info } := by
  rcases step_running_cases hr with ⟨f, hf, e⟩ | ⟨u, e, hu⟩ <;>
    obtain rfl := next_inj (e.symm.trans h)
  · exact ⟨f, hf, rfl, (Status.faulted.inj ht).symm⟩
  · rcases hu with hu | ⟨-, rfl⟩
    · cases hu.symm.trans ht
    · cases ht

/-- A record with the `info` of a fault that a step can raise is legal. -/
theorem State.CanRaise.legal {s : State} {f : Raise} (h : s.CanRaise f) (addr : Byte) :
    FaultRecord.Legal { cause := f.cause, addr := addr, info := f.info } := by
  cases h with
  | unknown h => exact ⟨Nat.le_of_lt_succ (s.memRead s.pc).isLt, by simpa using h⟩
  | address => rfl
  | byte1 h => exact ⟨h, Nat.le_of_lt_succ (s.memRead (s.pc + 1)).isLt⟩
  | byte2 _ _ _ h => exact ⟨h, Nat.le_of_lt_succ (s.memRead (s.pc + 2)).isLt⟩

/-- Settles O10: raised faults and executed instructions are next states of the three statuses. -/
theorem runningStepAnswersNextState : Obligations.RunningStepAnswersNextState := by
  intro s hr
  rcases step_running_cases hr with ⟨f, -, e⟩ | ⟨t, e, ht | ⟨-, rfl⟩⟩
  · exact ⟨_, e, .inr (.inr ⟨_, rfl⟩)⟩
  · exact ⟨t, e, .inl ht⟩
  · exact ⟨_, e, .inr (.inl rfl)⟩

/-- Settles O15: a step that ends Faulted is the raise of a fault, and a raise does only that. -/
theorem faultingStepChangesNothingElse : Obligations.FaultingStepChangesNothingElse := by
  intro s t r hr h ht
  obtain ⟨f, -, rfl, rfl⟩ := step_faulted_inv hr h ht
  exact ⟨rfl, rfl⟩

/-- Settles O16: the records by the faults a step can raise; the ALU by its selectors. -/
theorem faultRecordsAreAsListed : Obligations.FaultRecordsAreAsListed := by
  refine ⟨fun s t r hr h ht => ?_, fun sel _ _ => ?_, rfl, rfl, rfl, rfl⟩
  · obtain ⟨f, hf, -, rfl⟩ := step_faulted_inv hr h ht
    refine ⟨rfl, hf.legal s.pc, ?_⟩
    cases hf with
    | unknown => exact ⟨nofun, fun _ => rfl, nofun, nofun⟩
    | address => exact ⟨nofun, nofun, fun _ => rfl, nofun⟩
    | byte1 h1 => exact ⟨nofun, nofun, nofun, fun _ => ⟨h1, .inl rfl⟩⟩
    | byte2 hm hm2 h1 h2 => exact ⟨nofun, nofun, nofun, fun _ => ⟨h2, .inr ⟨⟨_, hm, hm2⟩, h1, rfl⟩⟩⟩
  · cases sel <;> simp [alu]

/-- Settles O44: a step that neither faults nor leaves the engine Running is HLT's. -/
theorem onlyHltHaltsTheEngine : Obligations.OnlyHltHaltsTheEngine := by
  intro s t hr h ht
  rcases step_running_cases hr with ⟨f, -, e⟩ | ⟨u, e, hu⟩ <;>
    obtain rfl := next_inj (e.symm.trans h)
  · cases ht
  · rcases hu with hu | hu
    · cases hu.symm.trans ht
    · exact hu

/-! ### Faults do not depend on computed values (R122) -/

theorem exists_eq_assemble (i : Instr) : ∃ m a b, i = assemble m a b := by
  cases i with
  | hlt => exact ⟨.hlt, 0, 0, rfl⟩
  | ret => exact ⟨.ret, 0, 0, rfl⟩
  | ldi a b => exact ⟨.ldi, a, b, rfl⟩
  | add a b => exact ⟨.add, a, b, rfl⟩
  | mul a b => exact ⟨.mul, a, b, rfl⟩
  | cmp a b => exact ⟨.cmp, a, b, rfl⟩
  | prn a => exact ⟨.prn, a, 0, rfl⟩
  | push a => exact ⟨.push, a, 0, rfl⟩
  | pop a => exact ⟨.pop, a, 0, rfl⟩
  | call a => exact ⟨.call, a, 0, rfl⟩
  | jmp a => exact ⟨.jmp, a, 0, rfl⟩
  | jeq a => exact ⟨.jeq, a, 0, rfl⟩
  | jne a => exact ⟨.jne, a, 0, rfl⟩

/-- Settles O17: the fault of an instruction is a function of PC, the E flag and its bytes. -/
theorem computedValuesCauseNoFault : Obligations.ComputedValuesCauseNoFault := by
  intro i s s' t r hr hpc hE h ht
  obtain ⟨m, a, b, rfl⟩ := exists_eq_assemble i
  have h1 := exec_answersWith m a b s
  have h2 := exec_answersWith m a b s'
  rw [hpc, hE] at h2
  cases hf : operandFault s.pc s.flagE m a b with
  | some f =>
    rw [hf] at h1 h2
    obtain rfl := next_inj (h1.symm.trans h)
    cases ht
    exact h2
  | none =>
    rw [hf] at h1
    obtain ⟨u, hu, hs⟩ := h1
    obtain rfl := next_inj (hu.symm.trans h)
    rcases hs with hs | ⟨-, rfl⟩
    · cases (hs.trans hr).symm.trans ht
    · cases ht

end Sys2Proof.Machine

/-! SUPPORT. The frame of every instruction (10_state.md R12, R16, R21, 20_memory.md R35), and the
invariant that steps and the host's operations keep (R15, R23, R121, R124). -/

namespace Sys2Proof.Machine

/-! ### What exec leaves as it was -/

/-- What `exec` of `i` leaves of `s` in `t`: the registers `i` does not write, memory but for the
byte PUSH and CALL store, the output log but for the byte PRN appends, the status but for HLT and
faults. -/
structure ExecFrame (i : Instr) (s t : State) : Prop where
  reg : ∀ q, writesReg q i = false → t.reg q = s.reg q
  mem : t.mem = s.mem ∨
    (∃ a, i = .push a ∨ i = .call a) ∧ ∃ v, t.mem = s.mem.write (s.reg .sp - 1) v
  output : t.output = s.output ∨ (∃ a, i = .prn a) ∧ ∃ v, t.output = s.output ++ [v]
  status : t.status = s.status ∨ i = .hlt ∨ ∃ r, t.status = .faulted r

/-- A raised fault leaves everything but the status. -/
theorem RaisedByOperands.frame {i : Instr} {s t : State} (h : RaisedByOperands s t) :
    ExecFrame i s t := by
  have hf : ∃ f, t = s.raise f := h.elim (fun e => ⟨_, e⟩) fun ⟨_, _, e⟩ => ⟨_, e⟩
  obtain ⟨f, rfl⟩ := hf
  exact ⟨fun _ _ => rfl, .inl rfl, .inl rfl, .inr (.inr ⟨_, rfl⟩)⟩

/-- Effects on the registers the instruction writes, PC and FL alone. -/
theorem ExecFrame.of_reg {i : Instr} {s t : State}
    (hreg : ∀ q, writesReg q i = false → t.reg q = s.reg q) (hmem : t.mem = s.mem)
    (hout : t.output = s.output) (hst : t.status = s.status) : ExecFrame i s t :=
  ⟨hreg, .inl hmem, .inl hout, .inl hst⟩

theorem State.reg_setReg_of_ne (s : State) {q r : Reg} (v : Byte) (h : q ≠ r) :
    (s.setReg r v).reg q = s.reg q := by
  rw [State.reg_setReg, if_neg h]

theorem ne_of_not_names {a : Byte} {q r : Reg} (ha : Reg.ofIndex a = some r)
    (hq : names a q = false) : q ≠ r := by
  rintro rfl
  simp [names, ha] at hq

theorem commit_branch_frame {a : Byte} {taken : Bool} {i : Instr} {s t : State}
    (h : s.commit (s.branch taken a) = .next t) : ExecFrame i s t := by
  rcases State.commit_branch_inv h with ⟨_, -, -, -, rfl⟩ | ⟨-, -, -, rfl⟩ | hr
  · exact .of_reg (fun _ _ => rfl) rfl rfl rfl
  · exact .of_reg (fun _ _ => rfl) rfl rfl rfl
  · exact hr.frame

theorem exec_frame {i : Instr} {s t : State} (h : exec i s = .next t) : ExecFrame i s t := by
  cases i with
  | hlt =>
    obtain rfl := next_inj h
    exact ⟨fun _ _ => rfl, .inl rfl, .inl rfl, .inr (.inl rfl)⟩
  | ret =>
    obtain rfl := next_inj h
    exact .of_reg (fun _ hq => s.reg_setReg_of_ne _ (of_decide_eq_false hq)) rfl rfl rfl
  | ldi _ _ =>
    rcases exec_ldi_inv h with ⟨r, ha, -, rfl⟩ | hr
    · exact .of_reg (fun _ hq => s.reg_setReg_of_ne _ (ne_of_not_names ha hq)) rfl rfl rfl
    · exact hr.frame
  | add _ _ =>
    rcases exec_add_inv h with ⟨ra, _, ha, -, -, rfl⟩ | hr
    · exact .of_reg (fun _ hq => s.reg_setReg_of_ne _ (ne_of_not_names ha hq)) rfl rfl rfl
    · exact hr.frame
  | mul _ _ =>
    rcases exec_mul_inv h with ⟨ra, _, ha, -, -, rfl⟩ | hr
    · exact .of_reg (fun _ hq => s.reg_setReg_of_ne _ (ne_of_not_names ha hq)) rfl rfl rfl
    · exact hr.frame
  | cmp _ _ =>
    rcases exec_cmp_inv h with ⟨_, _, -, -, -, rfl⟩ | hr
    · exact .of_reg (fun _ _ => rfl) rfl rfl rfl
    · exact hr.frame
  | prn a =>
    rcases exec_prn_inv h with ⟨_, -, -, rfl⟩ | hr
    · exact ⟨fun _ _ => rfl, .inl rfl, .inr ⟨⟨a, rfl⟩, _, rfl⟩, .inl rfl⟩
    · exact hr.frame
  | push a =>
    rcases exec_push_inv h with ⟨_, -, -, rfl⟩ | hr
    · exact ⟨fun _ hq => s.reg_setReg_of_ne _ (of_decide_eq_false hq),
        .inr ⟨⟨a, .inl rfl⟩, _, rfl⟩, .inl rfl, .inl rfl⟩
    · exact hr.frame
  | call a =>
    rcases exec_call_inv h with ⟨_, -, -, rfl⟩ | hr
    · exact ⟨fun _ hq => s.reg_setReg_of_ne _ (of_decide_eq_false hq),
        .inr ⟨⟨a, .inr rfl⟩, _, rfl⟩, .inl rfl, .inl rfl⟩
    · exact hr.frame
  | pop _ =>
    rcases exec_pop_inv h with ⟨r, ha, -, rfl⟩ | hr
    · refine .of_reg (fun q hq => ?_) rfl rfl rfl
      obtain ⟨hn, hsp⟩ := Bool.or_eq_false_iff.1 hq
      exact (State.reg_setReg_of_ne _ _ (of_decide_eq_false hsp)).trans
        (s.reg_setReg_of_ne _ (ne_of_not_names ha hn))
    · exact hr.frame
  | jmp _ =>
    rcases exec_jmp_inv h with ⟨_, -, -, rfl⟩ | hr
    · exact .of_reg (fun _ _ => rfl) rfl rfl rfl
    · exact hr.frame
  | jeq _ => exact commit_branch_frame h
  | jne _ => exact commit_branch_frame h

theorem ExecFrame.mem_eq {i : Instr} {s t : State} (h : ExecFrame i s t)
    (hi : ∀ a, i ≠ .push a ∧ i ≠ .call a) : t.mem = s.mem :=
  h.mem.resolve_right fun ⟨⟨a, ha⟩, _⟩ => ha.elim (hi a).1 (hi a).2

theorem ExecFrame.output_eq {i : Instr} {s t : State} (h : ExecFrame i s t)
    (hi : ∀ a, i ≠ .prn a) : t.output = s.output :=
  h.output.resolve_right fun ⟨⟨a, ha⟩, _⟩ => hi a ha

theorem ExecFrame.status_eq {i : Instr} {s t : State} (h : ExecFrame i s t) (hi : i ≠ .hlt) :
    t.status = s.status ∨ ∃ r, t.status = .faulted r :=
  h.status.imp_right fun hs => hs.resolve_left hi

theorem State.memRead_eq_of_mem_eq {s t : State} (h : t.mem = s.mem) (x : Byte) :
    t.memRead x = s.memRead x := congrArg (·.read x) h

theorem ExecFrame.memRead_eq {i : Instr} {s t : State} (h : ExecFrame i s t) {x : Byte}
    (hx : x ≠ s.reg .sp - 1) : t.memRead x = s.memRead x := by
  rcases h.mem with e | ⟨-, v, e⟩
  · exact State.memRead_eq_of_mem_eq e x
  · rw [State.memRead, e, Memory.read_write, if_neg hx]
    rfl

theorem exec_fl_eq {i : Instr} {s t : State} (h : exec i s = .next t)
    (hi : ∀ a b, i ≠ .cmp a b) : t.fl = s.fl :=
  (exec_fl_eq_or_cmp h).resolve_right fun ⟨a, b, e⟩ => hi a b e

/-! ### The frames of the instructions -/

/-- Settles O38: the frame of each, whose one written register is the one byte 1 names. -/
theorem ldiAddMulChangeOnlyTheirDestination :
    Obligations.LdiAddMulChangeOnlyTheirDestination := by
  intro a b i s t hi h
  have hf := exec_frame h
  have hw : ∀ q, writesReg q i = names a q := by
    rcases hi with rfl | rfl | rfl <;> exact fun _ => rfl
  refine ⟨fun q hq => hf.reg q ?_, exec_fl_eq h ?_, hf.output_eq ?_,
    State.memRead_eq_of_mem_eq (hf.mem_eq ?_), hf.status_eq ?_⟩
  · rw [hw]
    exact decide_eq_false hq
  all_goals rcases hi with rfl | rfl | rfl <;> simp

/-- Settles O39: the frame of each, which writes no register. -/
theorem cmpAndPrnChangeNoRegisterAndNoMemory :
    Obligations.CmpAndPrnChangeNoRegisterAndNoMemory := by
  intro i s t hi h
  have hf := exec_frame h
  refine ⟨fun q => hf.reg q ?_, State.memRead_eq_of_mem_eq (hf.mem_eq ?_), ?_, ?_, hf.status_eq ?_⟩
  · rcases hi with ⟨_, _, rfl⟩ | ⟨_, rfl⟩ <;> rfl
  · rcases hi with ⟨_, _, rfl⟩ | ⟨_, rfl⟩ <;> simp
  · rintro ⟨a, b, rfl⟩
    exact hf.output_eq (by simp)
  · rintro ⟨a, rfl⟩
    exact ⟨exec_fl_eq h (by simp), hf.output.imp_right And.right⟩
  · rcases hi with ⟨_, _, rfl⟩ | ⟨_, rfl⟩ <;> simp

/-- Settles O40: the frame of each, which writes R6 and stores at the decremented pointer. -/
theorem pushAndCallChangeOneByteAndTheStackPointer :
    Obligations.PushAndCallChangeOneByteAndTheStackPointer := by
  intro a i s t hi h
  have hf := exec_frame h
  have hw : ∀ q, writesReg q i = decide (q = .sp) := by
    rcases hi with rfl | rfl <;> exact fun _ => rfl
  refine ⟨fun q hq => hf.reg q ?_, exec_fl_eq h ?_, hf.output_eq ?_, fun x hx => hf.memRead_eq ?_,
    hf.status_eq ?_⟩
  · rw [hw]
    exact decide_eq_false hq
  · rcases hi with rfl | rfl <;> simp
  · rcases hi with rfl | rfl <;> simp
  · simpa using hx
  · rcases hi with rfl | rfl <;> simp

/-- Settles O41: the frame of each, which writes R6 and, POP, its operand. -/
theorem popAndRetChangeNoMemory : Obligations.PopAndRetChangeNoMemory := by
  intro i s t hi h
  have hf := exec_frame h
  refine ⟨fun q hq ha => hf.reg q ?_, exec_fl_eq h ?_, hf.output_eq ?_,
    State.memRead_eq_of_mem_eq (hf.mem_eq ?_), hf.status_eq ?_⟩
  · rcases hi with ⟨a, rfl⟩ | rfl
    · exact Bool.or_eq_false_iff.2 ⟨decide_eq_false (ha a rfl), decide_eq_false hq⟩
    · exact decide_eq_false hq
  all_goals rcases hi with ⟨_, rfl⟩ | rfl <;> simp

/-- Settles O42: the frame of each, which writes no register; HLT's effect is the status alone. -/
theorem jumpsAndHltChangeOnlyPcOrStatus : Obligations.JumpsAndHltChangeOnlyPcOrStatus := by
  intro i s t hi h
  have hf := exec_frame h
  refine ⟨fun q => hf.reg q ?_, exec_fl_eq h ?_, hf.output_eq ?_,
    State.memRead_eq_of_mem_eq (hf.mem_eq ?_), ?_, hf.status_eq⟩
  · rcases hi with rfl | ⟨_, rfl | rfl | rfl⟩ <;> rfl
  · rcases hi with rfl | ⟨_, rfl | rfl | rfl⟩ <;> simp
  · rcases hi with rfl | ⟨_, rfl | rfl | rfl⟩ <;> simp
  · rcases hi with rfl | ⟨_, rfl | rfl | rfl⟩ <;> simp
  · rintro rfl
    obtain rfl := next_inj h
    exact ⟨rfl, rfl⟩

/-! ### What a step changes -/

theorem mnemonic_assemble (m : Mnemonic) (a b : Byte) : (assemble m a b).mnemonic = m := by
  cases m <;> rfl

/-- The operation of the instruction fetched is the one of the byte at PC. -/
theorem State.lookupOpcode_of_fetchInstr {s : State} {i : Instr} (h : s.fetchInstr = .ok i) :
    lookupOpcode (s.memRead s.pc) = some i.mnemonic := by
  rcases s.fetchInstr_cases with ⟨-, e⟩ | ⟨m, -, -, e⟩ | ⟨m, hm, -, e⟩
  · cases e.symm.trans h
  · cases e.symm.trans h
  · cases e.symm.trans h
    rw [hm, mnemonic_assemble]

/-- Settles O45: a fault changes none of the three, and the frame of the instruction at PC says
which operation changes which. -/
theorem onlyListedInstructionsChangeMemoryOutputFlags :
    Obligations.OnlyListedInstructionsChangeMemoryOutputFlags := by
  intro s t hr h
  rcases step_inv h with ⟨hn, -⟩ | ⟨-, i, hi, he⟩ | ⟨-, f, -, rfl⟩
  · rcases hn with hn | hn <;> cases hr.symm.trans hn
  · have hm := State.lookupOpcode_of_fetchInstr hi
    have hf := exec_frame he
    refine ⟨fun ⟨x, hx⟩ => ?_, fun ho => ?_, fun hfl => ?_⟩
    · rcases hf.mem with e | ⟨⟨a, rfl | rfl⟩, -⟩
      · exact absurd (State.memRead_eq_of_mem_eq e x) hx
      · exact .inl hm
      · exact .inr hm
    · obtain ⟨⟨a, rfl⟩, hv⟩ := hf.output.resolve_left ho
      exact ⟨hm, hv⟩
    · obtain ⟨a, b, rfl⟩ := (exec_fl_eq_or_cmp he).resolve_left hfl
      exact hm
  · exact ⟨fun ⟨_, hx⟩ => absurd rfl hx, fun ho => absurd rfl ho, fun hfl => absurd rfl hfl⟩

/-! ### The invariant -/

theorem ExecFrame.mem_wf {i : Instr} {s t : State} (h : ExecFrame i s t) (hs : s.mem.wf = true) :
    t.mem.wf = true := by
  rcases h.mem with e | ⟨-, v, e⟩
  · rwa [e]
  · rw [e]
    exact Memory.wf_write _ v hs

theorem step_mem_wf {s t : State} (hs : s.mem.wf = true) (h : step s = .next t) :
    t.mem.wf = true := by
  rcases step_inv h with ⟨-, rfl⟩ | ⟨-, i, -, hi⟩ | ⟨-, f, -, rfl⟩
  · exact hs
  · exact (exec_frame hi).mem_wf hs
  · exact hs

/-- A record that a step leaves is legal: it stood before, or the step raised it. -/
theorem step_faultLegal {s t : State} (hs : s.FaultLegal) (h : step s = .next t) :
    t.FaultLegal := by
  intro r ht
  by_cases hr : s.status = .running
  · obtain ⟨f, hf, rfl, rfl⟩ := step_faulted_inv hr h ht
    exact ⟨hf.legal s.pc, rfl⟩
  · rcases step_inv h with ⟨-, rfl⟩ | ⟨hr', -⟩ | ⟨hr', -⟩
    · exact hs r ht
    · exact absurd hr' hr
    · exact absurd hr' hr

/-- Settles O11: each part of the invariant by itself. -/
theorem stepKeepsInvariant : Obligations.StepKeepsInvariant :=
  fun _ _ hs h => ⟨step_mem_wf hs.mem h, step_flagsLegal hs.fl h, step_faultLegal hs.fault h⟩

/-- Settles O12. -/
theorem resetMeetsInvariant : Obligations.ResetMeetsInvariant :=
  ⟨State.reset_mem_wf, .inl rfl, nofun⟩

/-- Settles O13: reset gives the reset state; load and write change memory alone, run the status. -/
theorem hostOperationsKeepInvariant : Obligations.HostOperationsKeepInvariant := by
  refine fun s t hs => ⟨resetMeetsInvariant, fun program h => ?_, fun address value h => ?_,
    fun h => ?_⟩
  · obtain ⟨-, -, rfl⟩ := hostLoad_inv h
    exact ⟨Memory.wf_putBytes program 0 hs.mem, hs.fl, hs.fault⟩
  · obtain ⟨-, ha, -, rfl⟩ := hostWrite_inv h
    exact ⟨Memory.wf_writeNat _ hs.mem ha, hs.fl, hs.fault⟩
  · obtain ⟨-, rfl⟩ := hostRun_inv h
    exact ⟨hs.mem, hs.fl, nofun⟩

end Sys2Proof.Machine

/-! SUPPORT. One equation per instruction for the state it leaves when its checks pass, and the
faults of every instruction of a format (40_engine_hlt.md R80, 41_load_print.md to 45_branch.md). -/

namespace Sys2Proof.Machine

/-! ### The faults of a format -/

theorem exec_eq_raise {s : State} {m : Mnemonic} {a b : Byte} {f : Raise}
    (h : operandFault s.pc s.flagE m a b = some f) :
    exec (assemble m a b) s = .next (s.raise f) := by
  have := exec_answersWith m a b s
  rwa [h] at this

/-- Every instruction with one register operand has R73's and R74's faults. -/
theorem operandFaultsR_assemble {m : Mnemonic} (hm : m.format = .f1r) :
    OperandFaultsR (fun a s => exec (assemble m a 0) s) := by
  have h1 : m.format.operandBytes = 1 := by rw [hm]; rfl
  refine fun a s => ⟨fun hp => ?_, fun hp ha => ?_⟩
  · exact exec_eq_raise (operandFault_of_operand_address (by omega))
  · exact exec_eq_raise (operandFault_of_byte1 (by omega) (by simp [hm]) ha)

/-- The last check of an instruction with one register operand: at address 254 its next address is
256. -/
theorem exec_f1r_next_address {s : State} {m : Mnemonic} {a : Byte} (hm : m.format = .f1r)
    (hc : checksNextAddress s.flagE m = true) (hp : s.pc.toNat = 254) (ha : a.toNat ≤ 7) :
    exec (assemble m a 0) s = .next (s.faultedWith .addressOutOfRange 256) := by
  have h1 : m.format.operandBytes = 1 := by rw [hm]; rfl
  exact exec_eq_raise (operandFault_of_next_address (by omega) (fun _ => ha) (by simp [hm]) hc)

/-- The faults of the instructions with two register operands (R92). -/
theorem faultsRR_assemble {m : Mnemonic} (hm : m.format = .f2rr)
    (hc : ∀ e, checksNextAddress e m = true) :
    FaultsRR (fun a b s => exec (assemble m a b) s) := by
  have h2 : m.format.operandBytes = 2 := by rw [hm]; rfl
  refine fun a b s => ⟨fun hp => ?_, fun hp ha => ?_, fun hp ha hb => ?_, fun hp ha hb => ?_⟩
  · exact exec_eq_raise (operandFault_of_operand_address (by omega))
  · exact exec_eq_raise (operandFault_of_byte1 (by omega) (by simp [hm]) ha)
  · exact exec_eq_raise (operandFault_of_byte2 (by omega) ha hm hb)
  · exact exec_eq_raise (operandFault_of_next_address (by omega) (fun _ => ha) (fun _ => hb) (hc _))

/-! ### The checks passed -/

theorem State.operandR_next_ok {s : State} {a : Byte} {r : Reg} (ha : Reg.ofIndex a = some r)
    (hp : s.pc.toNat ≤ 253) (k : Reg → Byte → Check State) :
    (do let r ← s.operandR a; let next ← s.nextAddress 2; k r next) =
      k r (BitVec.ofNat 8 (s.pc.toNat + 2)) := by
  rw [State.operandR_ok (by omega) ha, State.nextAddress_ok (by omega)]
  rfl

theorem State.operandsRI_next_ok {s : State} {a : Byte} {r : Reg} (ha : Reg.ofIndex a = some r)
    (hp : s.pc.toNat ≤ 252) (k : Reg → Byte → Check State) :
    (do let r ← s.operandsRI a; let next ← s.nextAddress 3; k r next) =
      k r (BitVec.ofNat 8 (s.pc.toNat + 3)) := by
  rw [State.operandsRI_ok (by omega) ha, State.nextAddress_ok (by omega)]
  rfl

theorem State.branch_taken {s : State} {a : Byte} {r : Reg} (ha : Reg.ofIndex a = some r)
    (hp : s.pc.toNat ≤ 254) : s.branch true a = .ok (s.setPc (s.reg r)) := by
  rw [State.branch, State.operandR_ok (by omega) ha]
  rfl

theorem State.branch_not_taken {s : State} {a : Byte} (ha : a.toNat ≤ 7) (hp : s.pc.toNat ≤ 253) :
    s.branch false a = .ok (s.setPc (BitVec.ofNat 8 (s.pc.toNat + 2))) := by
  obtain ⟨r, hr⟩ := Reg.exists_ofIndex ha
  rw [State.branch, State.operandR_ok (by omega) hr, State.nextAddress_ok (by omega)]
  rfl

section
variable {s : State} {a b : Byte} {r ra rb : Reg}

theorem exec_ldi_ok (imm : Byte) (ha : Reg.ofIndex a = some r) (hp : s.pc.toNat ≤ 252) :
    exec (.ldi a imm) s = .next ((s.setReg r imm).setPc (BitVec.ofNat 8 (s.pc.toNat + 3))) :=
  congrArg s.commit (State.operandsRI_next_ok ha hp fun r next => .ok ((s.setReg r imm).setPc next))

theorem exec_prn_ok (ha : Reg.ofIndex a = some r) (hp : s.pc.toNat ≤ 253) :
    exec (.prn a) s = .next ((s.out (s.reg r)).setPc (BitVec.ofNat 8 (s.pc.toNat + 2))) :=
  congrArg s.commit
    (State.operandR_next_ok ha hp fun r next => .ok ((s.out (s.reg r)).setPc next))

theorem exec_add_ok (ha : Reg.ofIndex a = some ra) (hb : Reg.ofIndex b = some rb)
    (hp : s.pc.toNat ≤ 252) :
    exec (.add a b) s = .next ((s.setReg ra
      (BitVec.ofNat 8 (((s.reg ra).toNat + (s.reg rb).toNat) % 256))).setPc
        (BitVec.ofNat 8 (s.pc.toNat + 3))) :=
  congrArg s.commit (State.aluPath_ok .add ha hb hp)

theorem exec_mul_ok (ha : Reg.ofIndex a = some ra) (hb : Reg.ofIndex b = some rb)
    (hp : s.pc.toNat ≤ 252) :
    exec (.mul a b) s = .next ((s.setReg ra
      (BitVec.ofNat 8 (((s.reg ra).toNat * (s.reg rb).toNat) % 256))).setPc
        (BitVec.ofNat 8 (s.pc.toNat + 3))) :=
  congrArg s.commit (State.aluPath_ok .mul ha hb hp)

/-- PUSH reads its operand after the decrement (decision D9). -/
theorem exec_push_ok (ha : Reg.ofIndex a = some r) (hp : s.pc.toNat ≤ 253) :
    exec (.push a) s = .next (((s.setReg .sp (s.reg .sp - 1)).memWrite (s.reg .sp - 1)
      (if r = .sp then s.reg .sp - 1 else s.reg r)).setPc (BitVec.ofNat 8 (s.pc.toNat + 2))) := by
  refine (congrArg s.commit (State.operandR_next_ok ha hp fun r next =>
    .ok ((s.predecSp.storeTop (s.predecSp.reg r)).setPc next))).trans ?_
  simp

/-- CALL reads its target after the decrement (decision D9). -/
theorem exec_call_ok (ha : Reg.ofIndex a = some r) (hp : s.pc.toNat ≤ 253) :
    exec (.call a) s = .next (((s.setReg .sp (s.reg .sp - 1)).memWrite (s.reg .sp - 1)
      (BitVec.ofNat 8 (s.pc.toNat + 2))).setPc (if r = .sp then s.reg .sp - 1 else s.reg r)) := by
  refine (congrArg s.commit (State.operandR_next_ok ha hp fun r next =>
    .ok ((s.predecSp.storeTop next).setPc (s.predecSp.reg r)))).trans ?_
  simp

/-- POP increments R6 after the load (decision D9). -/
theorem exec_pop_ok (ha : Reg.ofIndex a = some r) (hp : s.pc.toNat ≤ 253) :
    exec (.pop a) s = .next (((s.setReg r (s.memRead (s.reg .sp))).setReg .sp
      ((if r = .sp then s.memRead (s.reg .sp) else s.reg .sp) + 1)).setPc
        (BitVec.ofNat 8 (s.pc.toNat + 2))) := by
  refine (congrArg s.commit (State.operandR_next_ok ha hp fun r next =>
    .ok ((s.setReg r s.stackTop).postincSp.setPc next))).trans ?_
  simp [eq_comm]

theorem exec_ret_ok (s : State) :
    exec .ret s = .next ((s.setReg .sp (s.reg .sp + 1)).setPc (s.memRead (s.reg .sp))) := rfl

theorem exec_jmp_ok (ha : Reg.ofIndex a = some r) (hp : s.pc.toNat ≤ 254) :
    exec (.jmp a) s = .next (s.setPc (s.reg r)) := by
  have h : (do let r ← s.operandR a; .ok (s.setPc (s.reg r)) : Check State) =
      .ok (s.setPc (s.reg r)) := by
    rw [State.operandR_ok (by omega) ha]
    rfl
  exact congrArg s.commit h

theorem exec_jeq_taken (ha : Reg.ofIndex a = some r) (hE : s.fl.getLsbD 0 = true)
    (hp : s.pc.toNat ≤ 254) : exec (.jeq a) s = .next (s.setPc (s.reg r)) := by
  change s.commit (s.branch (s.fl.getLsbD 0) a) = _
  rw [hE, State.branch_taken ha hp, State.commit_ok]

theorem exec_jeq_not_taken (ha : a.toNat ≤ 7) (hE : s.fl.getLsbD 0 = false)
    (hp : s.pc.toNat ≤ 253) :
    exec (.jeq a) s = .next (s.setPc (BitVec.ofNat 8 (s.pc.toNat + 2))) := by
  change s.commit (s.branch (s.fl.getLsbD 0) a) = _
  rw [hE, State.branch_not_taken ha hp, State.commit_ok]

theorem exec_jne_taken (ha : Reg.ofIndex a = some r) (hE : s.fl.getLsbD 0 = false)
    (hp : s.pc.toNat ≤ 254) : exec (.jne a) s = .next (s.setPc (s.reg r)) := by
  change s.commit (s.branch (!s.fl.getLsbD 0) a) = _
  rw [hE, Bool.not_false, State.branch_taken ha hp, State.commit_ok]

theorem exec_jne_not_taken (ha : a.toNat ≤ 7) (hE : s.fl.getLsbD 0 = true)
    (hp : s.pc.toNat ≤ 253) :
    exec (.jne a) s = .next (s.setPc (BitVec.ofNat 8 (s.pc.toNat + 2))) := by
  change s.commit (s.branch (!s.fl.getLsbD 0) a) = _
  rw [hE, Bool.not_true, State.branch_not_taken ha hp, State.commit_ok]

end

/-! ### The instructions -/

/-- Settles O25. -/
theorem hltStopsTheEngine : Obligations.HltStopsTheEngine :=
  ⟨decode_encode .hlt, fun _ => rfl⟩

/-- Settles O26: the checks of LDI passed, and its three faults in the order of the checks. -/
theorem ldiLoadsTheImmediate : Obligations.LdiLoadsTheImmediate := by
  have h2 : Mnemonic.ldi.format.operandBytes = 2 := rfl
  refine fun a imm s => ⟨decode_encode (.ldi a imm), fun r => exec_ldi_ok imm, fun hp => ?_,
    fun hp ha => ?_, fun hp ha => ?_⟩
  · exact exec_eq_raise (m := .ldi) (operandFault_of_operand_address (by omega))
  · exact exec_eq_raise (m := .ldi) (operandFault_of_byte1 (by omega) nofun ha)
  · exact exec_eq_raise (m := .ldi)
      (operandFault_of_next_address (by omega) (fun _ => ha) nofun rfl)

/-- Settles O27. -/
theorem prnAppendsTheRegister : Obligations.PrnAppendsTheRegister :=
  ⟨fun a => decode_encode (.prn a), fun _ _ _ => exec_prn_ok,
    operandFaultsR_assemble (m := .prn) rfl,
    fun _ _ => exec_f1r_next_address (m := .prn) rfl rfl⟩

/-- Settles O28. -/
theorem addWrapsModulo256 : Obligations.AddWrapsModulo256 :=
  ⟨fun a b => decode_encode (.add a b), fun _ _ _ _ _ => exec_add_ok,
    faultsRR_assemble (m := .add) rfl fun _ => rfl⟩

/-- Settles O29. -/
theorem mulKeepsTheLowByte : Obligations.MulKeepsTheLowByte :=
  ⟨fun a b => decode_encode (.mul a b), fun _ _ _ _ _ => exec_mul_ok,
    faultsRR_assemble (m := .mul) rfl fun _ => rfl⟩

theorem compareFlags_eq_ite (va vb : Byte) :
    compareFlags va vb =
      if va.toNat = vb.toNat then 0x01 else if va.toNat > vb.toNat then 0x02 else 0x04 := by
  simp only [compareFlags, BitVec.toNat_inj, flagsEqual, flagsGreater, flagsLess]

/-- Settles O30: the flags byte is the comparison's, by the unsigned relation. -/
theorem cmpWritesTheFlagsByte : Obligations.CmpWritesTheFlagsByte := by
  refine ⟨fun a b => decode_encode (.cmp a b), fun a b ra rb s ha hb hp => ?_,
    faultsRR_assemble (m := .cmp) rfl fun _ => rfl⟩
  rw [exec_cmp_ok ha hb hp, compareFlags_eq_ite]

/-- Settles O31. -/
theorem pushStoresBelowTheStackPointer : Obligations.PushStoresBelowTheStackPointer :=
  ⟨fun a => decode_encode (.push a), fun _ _ _ => exec_push_ok,
    operandFaultsR_assemble (m := .push) rfl,
    fun _ _ => exec_f1r_next_address (m := .push) rfl rfl⟩

/-- Settles O32: the load and then the increment, read register by register. -/
theorem popLoadsFromTheStackPointer : Obligations.PopLoadsFromTheStackPointer := by
  refine ⟨fun a => decode_encode (.pop a), fun a r s ha hp => ⟨_, exec_pop_ok ha hp, ?_, ?_, ?_,
    rfl, rfl, rfl, rfl, rfl⟩, operandFaultsR_assemble (m := .pop) rfl,
    fun _ _ => exec_f1r_next_address (m := .pop) rfl rfl⟩
  · by_cases hr : r = .sp <;> simp [hr]
  · intro hr
    simp [hr]
  · intro q hq hsp
    simp [hq, hsp]

/-- Settles O33. -/
theorem callPushesTheReturnAddress : Obligations.CallPushesTheReturnAddress :=
  ⟨fun a => decode_encode (.call a), fun _ _ _ => exec_call_ok,
    operandFaultsR_assemble (m := .call) rfl,
    fun _ _ => exec_f1r_next_address (m := .call) rfl rfl⟩

theorem toNat_add_one (x : Byte) : (x + 1).toNat = (x.toNat + 1) % 256 :=
  BitVec.toNat_add x 1

/-- Settles O34. -/
theorem retPopsThePc : Obligations.RetPopsThePc := by
  refine ⟨decode_encode .ret, fun s => ?_⟩
  rw [exec_ret_ok, ← toNat_add_one, BitVec.ofNat_toNat, BitVec.setWidth_eq]

/-- Settles O35. -/
theorem jmpGoesToTheRegister : Obligations.JmpGoesToTheRegister :=
  ⟨fun a => decode_encode (.jmp a), fun _ _ _ => exec_jmp_ok,
    operandFaultsR_assemble (m := .jmp) rfl⟩

/-- Settles O36: taken, not taken, and not taken at the end of memory. -/
theorem jeqBranchesWhenEqual : Obligations.JeqBranchesWhenEqual := by
  refine ⟨fun a => decode_encode (.jeq a), fun _ _ _ => exec_jeq_taken,
    fun _ _ => exec_jeq_not_taken, operandFaultsR_assemble (m := .jeq) rfl, fun a s ha hE hp => ?_⟩
  have hc : checksNextAddress s.flagE .jeq = true := congrArg (!·) hE
  exact exec_f1r_next_address (m := .jeq) rfl hc hp ha

/-- Settles O37: taken, not taken, and not taken at the end of memory. -/
theorem jneBranchesWhenNotEqual : Obligations.JneBranchesWhenNotEqual :=
  ⟨fun a => decode_encode (.jne a), fun _ _ _ => exec_jne_taken,
    fun _ _ => exec_jne_not_taken, operandFaultsR_assemble (m := .jne) rfl,
    fun _ _ ha hE hp => exec_f1r_next_address (m := .jne) rfl hE hp ha⟩

/-- Settles O21: bit 0 of FL decides between the two equations of each branch. -/
theorem branchControllerReadsEqualFlagOnly : Obligations.BranchControllerReadsEqualFlagOnly := by
  have h : ∀ (a : Byte) (r : Reg) (s : State), Reg.ofIndex a = some r → s.pc.toNat ≤ 253 →
      exec (.jeq a) s = .next (s.setPc
        (if s.fl.getLsbD 0 = true then s.reg r else BitVec.ofNat 8 (s.pc.toNat + 2))) ∧
      exec (.jne a) s = .next (s.setPc
        (if s.fl.getLsbD 0 = false then s.reg r else BitVec.ofNat 8 (s.pc.toNat + 2))) := by
    intro a r s ha hp
    have ha7 := Reg.toNat_le_of_ofIndex ha
    cases hE : s.fl.getLsbD 0 with
    | true => exact ⟨exec_jeq_taken ha hE (by omega), exec_jne_not_taken ha7 hE hp⟩
    | false => exact ⟨exec_jeq_not_taken ha7 hE hp, exec_jne_taken ha hE (by omega)⟩
  refine ⟨h, fun a r s ha hp hfl => ?_⟩
  have h0 := h a r s ha hp
  rwa [hfl] at h0

/-! ### The stack pointer modulo 256 (R37) -/

theorem toNat_sub_one (x : Byte) : (x - 1).toNat = (x.toNat + 255) % 256 := by
  rw [BitVec.toNat_sub, Nat.add_comm]
  rfl

/-- PUSH leaves the pointer decremented, and the operand's value under it. -/
theorem exec_push_stack {s : State} {a : Byte} {r : Reg} (ha : Reg.ofIndex a = some r)
    (hp : s.pc.toNat ≤ 253) :
    ∃ t, exec (.push a) s = .next t ∧ t.status = s.status ∧ t.reg .sp = s.reg .sp - 1 ∧
      t.memRead (s.reg .sp - 1) = t.reg r :=
  ⟨_, exec_push_ok ha hp, rfl, by simp, by simp⟩

/-- CALL leaves the pointer decremented, and the return address under it. -/
theorem exec_call_stack {s : State} {a : Byte} {r : Reg} (ha : Reg.ofIndex a = some r)
    (hp : s.pc.toNat ≤ 253) :
    ∃ t, exec (.call a) s = .next t ∧ t.status = s.status ∧ t.reg .sp = s.reg .sp - 1 ∧
      t.memRead (s.reg .sp - 1) = BitVec.ofNat 8 (s.pc.toNat + 2) :=
  ⟨_, exec_call_ok ha hp, rfl, by simp, by simp⟩

/-- POP leaves the byte at the pointer in its operand, and the pointer incremented. -/
theorem exec_pop_stack {s : State} {a : Byte} {r : Reg} (ha : Reg.ofIndex a = some r)
    (hp : s.pc.toNat ≤ 253) :
    ∃ t, exec (.pop a) s = .next t ∧ t.status = s.status ∧
      t.reg .sp = (if r = .sp then s.memRead (s.reg .sp) else s.reg .sp) + 1 ∧
      (r ≠ .sp → t.reg r = s.memRead (s.reg .sp)) :=
  ⟨_, exec_pop_ok ha hp, rfl, by simp, fun hr => by simp [hr]⟩

/-- Settles O24: the pointer of each, as a byte, is one less or one more, and bytes wrap. -/
theorem stackPointerWrapsModulo256 : Obligations.StackPointerWrapsModulo256 := by
  refine ⟨fun a r s ha hp => ⟨?_, ?_, ?_⟩, fun s => ⟨_, exec_ret_ok s, rfl, ?_, rfl⟩,
    fun a r s ha hp hsp => ?_, fun a r s ha hr hp hsp => ?_⟩
  · obtain ⟨t, ht, hst, hs, hm⟩ := exec_push_stack ha hp
    exact ⟨t, ht, hst, by rw [hs, toNat_sub_one], by rw [hs, hm]⟩
  · obtain ⟨t, ht, hst, hs, hm⟩ := exec_call_stack ha hp
    refine ⟨t, ht, hst, by rw [hs, toNat_sub_one], ?_⟩
    rw [hs, hm]
    exact Nat.mod_eq_of_lt (by omega)
  · obtain ⟨t, ht, hst, hs, hm⟩ := exec_pop_stack ha hp
    exact ⟨t, ht, hst, by rw [hs, toNat_add_one], hm⟩
  · simp
  · obtain ⟨t, ht, -, hs, hm⟩ := exec_push_stack ha hp
    rw [hsp] at hs hm
    exact ⟨t, ht, hs, hm⟩
  · obtain ⟨t, ht, -, hs, hm⟩ := exec_pop_stack ha hp
    rw [hsp, if_neg hr] at hs
    rw [hsp] at hm
    exact ⟨t, ht, hs, hm hr⟩

end Sys2Proof.Machine

/-! SUPPORT. Registers an instruction does not read (10_state.md R12). A meaning is a chain of
checks that ends in the effects; run from two states that differ in such a register alone, the
checks answer the same, and the effects leave the register or write the same to it. -/

namespace Sys2Proof.Machine

/-! ### Updates of other parts beside a register's -/

theorem State.setReg_comm (s : State) {q r : Reg} (v w : Byte) (h : r ≠ q) :
    (s.setReg q v).setReg r w = (s.setReg r w).setReg q v := by
  refine State.ext_fields (fun p => ?_) rfl rfl rfl rfl rfl
  simp only [State.reg_setReg]
  by_cases hp : p = r
  · simp [hp, h]
  · simp [hp]

theorem State.setReg_setReg (s : State) (q : Reg) (v w : Byte) :
    (s.setReg q v).setReg q w = s.setReg q w := by
  refine State.ext_fields (fun p => ?_) rfl rfl rfl rfl rfl
  simp only [State.reg_setReg]
  split_ifs <;> rfl

section
variable {q : Reg} {v : Byte}

theorem State.predecSp_setReg (s : State) (h : .sp ≠ q) :
    (s.setReg q v).predecSp = s.predecSp.setReg q v := by
  rw [State.predecSp, s.reg_setReg_of_ne v h, s.setReg_comm v _ h]
  rfl

theorem State.postincSp_setReg (s : State) (h : .sp ≠ q) :
    (s.setReg q v).postincSp = s.postincSp.setReg q v := by
  rw [State.postincSp, s.reg_setReg_of_ne v h, s.setReg_comm v _ h]
  rfl

theorem State.storeTop_setReg (s : State) (y : Byte) (h : .sp ≠ q) :
    (s.setReg q v).storeTop y = (s.storeTop y).setReg q v := by
  rw [State.storeTop, s.reg_setReg_of_ne v h]
  rfl

theorem State.stackTop_setReg (s : State) (h : .sp ≠ q) : (s.setReg q v).stackTop = s.stackTop := by
  rw [State.stackTop, s.reg_setReg_of_ne v h]
  rfl

/-! ### The two runs -/

/-- Two checked results of runs from states that differ in register `q` alone: one fault; or `q` as
it was before each, `x` and `v`; or `q` written alike, where `w` says that the instruction writes
it. -/
inductive SameButReg (q : Reg) (x v : Byte) (w : Bool) : Check State → Check State → Prop where
  | kept (t : State) (h : t.reg q = x) : SameButReg q x v w (.ok t) (.ok (t.setReg q v))
  | written (t : State) (h : w = true) : SameButReg q x v w (.ok t) (.ok t)
  | error (r : Raise) : SameButReg q x v w (.error r) (.error r)

/-- The same check before both. -/
theorem SameButReg.bind {x : Byte} {w : Bool} {α : Type} (c : Check α) {k k' : α → Check State}
    (h : ∀ y, c = .ok y → SameButReg q x v w (k y) (k' y)) :
    SameButReg q x v w (c >>= k) (c >>= k') := by
  cases c with
  | ok y => exact h y rfl
  | error r => exact .error r

theorem SameButReg.kept_of_eq {x : Byte} {w : Bool} {t t' : State} (h : t.reg q = x)
    (e : t' = t.setReg q v) : SameButReg q x v w (.ok t) (.ok t') := e ▸ .kept t h

theorem SameButReg.written_of_eq {x : Byte} {w : Bool} {t t' : State} (h : w = true)
    (e : t' = t) : SameButReg q x v w (.ok t) (.ok t') := e ▸ .written t' h

/-- The outcome of the run from the other state is `t` but for `q`, untouched, or is `t`. -/
def SameOutcomeButReg (q : Reg) (v : Byte) (w : Bool) (s t : State) (o : Outcome) : Prop :=
  (o = .next (t.setReg q v) ∧ t.reg q = s.reg q) ∨ (o = .next t ∧ w = true)

theorem SameButReg.commit {w : Bool} {s t : State} {c c' : Check State}
    (h : SameButReg q (s.reg q) v w c c') (ht : s.commit c = .next t) :
    SameOutcomeButReg q v w s t ((s.setReg q v).commit c') := by
  cases h with
  | kept u hu =>
    obtain rfl := next_inj ht
    exact .inl ⟨rfl, hu⟩
  | written u hw =>
    obtain rfl := next_inj ht
    exact .inr ⟨rfl, hw⟩
  | error r =>
    obtain rfl := next_inj ht
    exact .inl ⟨rfl, rfl⟩

/-! ### The registers the checks answer -/

theorem State.operandR_inv {s : State} {a : Byte} {r : Reg} (h : s.operandR a = .ok r) :
    Reg.ofIndex a = some r := by
  rcases s.operandR_cases a with ⟨r', ha, -, e⟩ | ⟨-, e⟩ | ⟨-, -, e⟩ <;> cases e.symm.trans h
  exact ha

theorem State.operandsRI_inv {s : State} {a : Byte} {r : Reg} (h : s.operandsRI a = .ok r) :
    Reg.ofIndex a = some r := by
  rcases s.operandsRI_cases a with ⟨r', ha, -, e⟩ | ⟨-, e⟩ | ⟨-, -, e⟩ <;> cases e.symm.trans h
  exact ha

theorem State.operandsRR_inv {s : State} {a b : Byte} {ra rb : Reg}
    (h : s.operandsRR a b = .ok (ra, rb)) : Reg.ofIndex a = some ra ∧ Reg.ofIndex b = some rb := by
  rcases s.operandsRR_cases a b with ⟨_, _, ha, hb, -, e⟩ | ⟨-, e⟩ | ⟨-, -, e⟩ | ⟨-, -, -, e⟩ <;>
    cases e.symm.trans h
  exact ⟨ha, hb⟩

/-! ### The instructions -/

variable {w : Bool}

theorem State.aluPath_setReg (s : State) (sel : Mnemonic) {a b : Byte} (ha : names a q = false)
    (hb : names b q = false) :
    SameButReg q (s.reg q) v w (s.aluPath sel a b) ((s.setReg q v).aluPath sel a b) := by
  refine .bind (s.operandsRR a b) fun (ra, rb) hr => .bind (s.nextAddress 3) fun next _ => ?_
  have hra := (ne_of_not_names (State.operandsRR_inv hr).1 ha).symm
  have hrb := (ne_of_not_names (State.operandsRR_inv hr).2 hb).symm
  show SameButReg _ _ _ _ (s.aluWrite sel ra (alu sel (s.reg ra) (s.reg rb)) >>= _)
    ((s.setReg q v).aluWrite sel ra (alu sel ((s.setReg q v).reg ra) ((s.setReg q v).reg rb)) >>= _)
  rw [s.reg_setReg_of_ne v hra, s.reg_setReg_of_ne v hrb]
  cases alu sel (s.reg ra) (s.reg rb) with
  | result y =>
    exact .kept_of_eq (s.reg_setReg_of_ne y hra.symm)
      (congrArg (·.setPc next) (s.setReg_comm v y hra))
  | flags y => exact .kept _ rfl
  | unsupported => exact .error _

theorem State.branch_setReg (s : State) {taken : Bool} {a : Byte}
    (ha : (taken && names a q) = false) :
    SameButReg q (s.reg q) v w (s.branch taken a) ((s.setReg q v).branch taken a) := by
  refine .bind (s.operandR a) fun r hr => ?_
  cases taken with
  | true =>
    have hne := (ne_of_not_names (State.operandR_inv hr) ha).symm
    exact .kept_of_eq rfl (by rw [s.reg_setReg_of_ne v hne]; rfl)
  | false => exact .bind (s.nextAddress 2) fun next _ => .kept _ rfl

/-- Another value in a register that the instruction does not read. -/
theorem exec_setReg {i : Instr} {s t : State} (hi : readsReg s.flagE q i = false)
    (h : exec i s = .next t) :
    SameOutcomeButReg q v (writesReg q i) s t (exec i (s.setReg q v)) := by
  cases i with
  | hlt =>
    obtain rfl := next_inj h
    exact .inl ⟨rfl, rfl⟩
  | ret =>
    have hsp : .sp ≠ q := Ne.symm (of_decide_eq_false hi)
    obtain rfl := next_inj h
    refine .inl ⟨?_, s.reg_setReg_of_ne _ hsp.symm⟩
    change Host.Outcome.next (((s.setReg q v).postincSp).setPc (s.setReg q v).stackTop) = _
    rw [s.postincSp_setReg hsp, s.stackTop_setReg hsp]
    rfl
  | ldi a y =>
    refine SameButReg.commit (.bind (s.operandsRI a) fun r hr => .bind (s.nextAddress 3)
      fun next _ => ?_) h
    by_cases hq : r = q
    · subst hq
      exact .written_of_eq (decide_eq_true (State.operandsRI_inv hr))
        (congrArg (·.setPc next) (s.setReg_setReg r v y))
    · exact .kept_of_eq (s.reg_setReg_of_ne y (Ne.symm hq))
        (congrArg (·.setPc next) (s.setReg_comm v y hq))
  | prn a =>
    refine SameButReg.commit (.bind (s.operandR a) fun r hr => .bind (s.nextAddress 2)
      fun next _ => ?_) h
    have hne := (ne_of_not_names (State.operandR_inv hr) hi).symm
    exact .kept_of_eq rfl (by rw [s.reg_setReg_of_ne v hne]; rfl)
  | jmp a =>
    refine SameButReg.commit (.bind (s.operandR a) fun r hr => ?_) h
    have hne := (ne_of_not_names (State.operandR_inv hr) hi).symm
    exact .kept_of_eq rfl (by rw [s.reg_setReg_of_ne v hne]; rfl)
  | push a | call a =>
    obtain ⟨hsp, ha⟩ := Bool.or_eq_false_iff.1 hi
    have hsp : .sp ≠ q := Ne.symm (of_decide_eq_false hsp)
    refine SameButReg.commit (.bind (s.operandR a) fun r hr => .bind (s.nextAddress 2)
      fun next _ => ?_) h
    have hne := (ne_of_not_names (State.operandR_inv hr) ha).symm
    refine .kept_of_eq (s.reg_setReg_of_ne _ hsp.symm) ?_
    rw [s.predecSp_setReg hsp, State.storeTop_setReg _ _ hsp, State.reg_setReg_of_ne _ _ hne]
    rfl
  | pop a =>
    have hsp : .sp ≠ q := Ne.symm (of_decide_eq_false hi)
    refine SameButReg.commit (.bind (s.operandR a) fun r hr => .bind (s.nextAddress 2)
      fun next _ => ?_) h
    by_cases hq : r = q
    · subst hq
      refine .written_of_eq
        (Bool.or_eq_true_iff.2 (.inl (decide_eq_true (State.operandR_inv hr)))) ?_
      rw [s.stackTop_setReg hsp, s.setReg_setReg]
    · refine .kept_of_eq ((State.reg_setReg_of_ne _ _ hsp.symm).trans
        (s.reg_setReg_of_ne _ (Ne.symm hq))) ?_
      rw [s.stackTop_setReg hsp, s.setReg_comm v _ hq, State.postincSp_setReg _ hsp]
      rfl
  | add a b | mul a b | cmp a b =>
    obtain ⟨ha, hb⟩ := Bool.or_eq_false_iff.1 hi
    exact (s.aluPath_setReg _ ha hb).commit h
  | jeq a => exact (s.branch_setReg (taken := s.flagE) hi).commit h
  | jne a => exact (s.branch_setReg (taken := !s.flagE) hi).commit h

end

/-- Settles O43: the two runs answer states that differ in the unread register alone, or equal
states. -/
theorem unreadRegistersDoNotMatter : Obligations.UnreadRegistersDoNotMatter := by
  intro i s t q v hi h
  rcases exec_setReg (v := v) hi h with ⟨e, ht⟩ | ⟨e, hw⟩
  · exact ⟨_, e, rfl, rfl, rfl, rfl, rfl, fun p hp => t.reg_setReg_of_ne v hp,
      .inl ⟨ht, by simp⟩⟩
  · exact ⟨t, e, rfl, rfl, rfl, rfl, rfl, fun _ _ => rfl, .inr ⟨hw, rfl⟩⟩

end Sys2Proof.Machine

/-! SUPPORT. Laws of memory as data (20_memory.md R30, R41): the bytes a fetch reads, what a load
leaves, and that memories in canonical form are equal when they read the same. -/

namespace Sys2Proof.Machine

/-! ### Bytes fetched -/

/-- The bytes from an address up are those that reading gives, as far as memory goes. -/
theorem Memory.getElem?_bytesFrom (m : Memory) (a n k : Nat) :
    (m.bytesFrom a n)[k]? =
      if k < n ∧ a + k ≤ topAddress then some (m.readNat (a + k)) else none := by
  induction n generalizing a k with
  | zero => simp [Memory.bytesFrom]
  | succ n ih =>
    rw [Memory.bytesFrom]
    by_cases ha : a ≤ topAddress
    · rw [if_pos ha]
      cases k with
      | zero => simp [ha]
      | succ k =>
        rw [List.getElem?_cons_succ, ih, Nat.add_right_comm a 1 k]
        simp only [Nat.add_lt_add_iff_right, Nat.add_assoc]
    · rw [if_neg ha, if_neg (by omega), List.getElem?_nil]

/-- Bytes put into memory are read back by a fetch from their address. -/
theorem Memory.bytesFrom_putBytes (m : Memory) {a : Nat} {bytes : List Byte}
    (h : a + bytes.length ≤ topAddress + 1) :
    (m.putBytes a bytes).bytesFrom a bytes.length = bytes := by
  refine List.ext_getElem? fun k => ?_
  rw [Memory.getElem?_bytesFrom, Memory.readNat_putBytes]
  by_cases hk : k < bytes.length
  · rw [if_pos (by omega), if_pos (by omega), Nat.add_sub_cancel_left, List.getD_eq_getElem _ _ hk,
      List.getElem?_eq_getElem hk]
  · rw [if_neg (by omega), List.getElem?_eq_none (by omega)]

/-- Settles O7: the word's three bytes stand at PC, and the step decodes them. -/
theorem placedInstructionIsRun : Obligations.PlacedInstructionIsRun := by
  intro s nbits w i hp h
  have hb : (s.mem.putBytes s.pc.toNat (tableBytes nbits w)).bytesFrom s.pc.toNat 3 =
      tableBytes nbits w :=
    s.mem.bytesFrom_putBytes (bytes := tableBytes nbits w) (Nat.add_le_add_right hp 3)
  unfold decodeTableWord at h
  split at h
  · next i' rest hd =>
    cases h
    exact stepRunsTheDecodedInstruction (s.withFetchWord nbits w) i rest rfl (hb.symm ▸ hd)
  · cases h

/-! ### Memory in canonical form -/

/-- An address below every entry reads 0x00. -/
theorem Memory.readNat_eq_zero_of_lt {m : Memory} {lo a : Nat} (h : Memory.wfFrom lo m = true)
    (ha : a < lo) : m.readNat a = 0x00 := by
  induction m generalizing lo with
  | nil => rfl
  | cons e rest ih =>
    obtain ⟨k, v⟩ := e
    simp only [Memory.wfFrom, Bool.and_eq_true, decide_eq_true_eq] at h
    obtain ⟨⟨⟨hlo, -⟩, -⟩, hrest⟩ := h
    rw [Memory.readNat, if_neg (by omega)]
    exact ih hrest (by omega)

/-- What the canonical form says of a first entry, and of what follows it. -/
theorem Memory.wfFrom_cons {m : Memory} {lo k : Nat} {v : Byte} :
    Memory.wfFrom lo ((k, v) :: m) = true ↔
      lo ≤ k ∧ k ≤ topAddress ∧ v ≠ 0x00 ∧ Memory.wfFrom (k + 1) m = true := by
  simp only [Memory.wfFrom, Bool.and_eq_true, decide_eq_true_eq, and_assoc]

/-- A memory that reads like one with a first entry has no first entry above that one's address. -/
theorem Memory.le_of_readNat_eq {m m' : Memory} {lo lo' k : Nat} {v : Byte}
    (h : Memory.wfFrom lo ((k, v) :: m) = true) (h' : Memory.wfFrom lo' m' = true)
    (heq : ∀ a ≤ topAddress, Memory.readNat ((k, v) :: m) a = m'.readNat a) : lo' ≤ k := by
  obtain ⟨-, hk, hv, -⟩ := Memory.wfFrom_cons.1 h
  by_contra hlt
  have h0 := heq k hk
  rw [Memory.readNat, if_pos rfl, Memory.readNat_eq_zero_of_lt h' (by omega)] at h0
  exact hv h0

/-- Canonical memories that read the same have the same first entry, and what follows it reads the
same. -/
theorem Memory.eq_of_readNat_eq {m m' : Memory} {lo lo' : Nat} (h : Memory.wfFrom lo m = true)
    (h' : Memory.wfFrom lo' m' = true) (heq : ∀ a ≤ topAddress, m.readNat a = m'.readNat a) :
    m = m' := by
  induction m generalizing m' lo lo' with
  | nil =>
    cases m' with
    | nil => rfl
    | cons e' rest' =>
      have := Memory.le_of_readNat_eq (lo' := e'.1 + 1) h' rfl fun a ha => (heq a ha).symm
      omega
  | cons e rest ih =>
    obtain ⟨k, v⟩ := e
    obtain ⟨-, hk, hv, hr⟩ := Memory.wfFrom_cons.1 h
    cases m' with
    | nil =>
      have := Memory.le_of_readNat_eq (lo' := k + 1) h rfl heq
      omega
    | cons e' rest' =>
      obtain ⟨k', v'⟩ := e'
      obtain ⟨-, hk', hv', hr'⟩ := Memory.wfFrom_cons.1 h'
      have hle := Memory.le_of_readNat_eq h (Memory.wfFrom_cons.2 ⟨le_rfl, hk', hv', hr'⟩) heq
      have hge := Memory.le_of_readNat_eq h' (Memory.wfFrom_cons.2 ⟨le_rfl, hk, hv, hr⟩)
        fun a ha => (heq a ha).symm
      obtain rfl := Nat.le_antisymm hle hge
      have hvv := heq k' hk
      rw [Memory.readNat, if_pos rfl, Memory.readNat, if_pos rfl] at hvv
      rw [hvv, ih hr hr' fun a ha => ?_]
      by_cases hak : k' = a
      · rw [Memory.readNat_eq_zero_of_lt hr (by omega), Memory.readNat_eq_zero_of_lt hr' (by omega)]
      · have := heq a ha
        rwa [Memory.readNat, if_neg hak, Memory.readNat, if_neg hak] at this

/-- Settles O23: every address is a byte, so the memories read the same at each. -/
theorem canonicalMemoriesAreEqualWhenReadEqual :
    Obligations.CanonicalMemoriesAreEqualWhenReadEqual := by
  refine fun m m' h h' heq => Memory.eq_of_readNat_eq h h' fun a ha => ?_
  have hx := heq (BitVec.ofNat 8 a)
  have hmod : a % 2 ^ 8 = a := Nat.mod_eq_of_lt (Nat.lt_succ_of_le ha)
  rwa [Memory.read, Memory.read, BitVec.toNat_ofNat, hmod] at hx

/-! ### What a load leaves -/

/-- A cell after a load: the program's byte, or, past the program, what it was (decision D14). -/
theorem hostLoad_memRead {s t : State} {program : List Byte} (h : hostLoad program s = .ok t)
    (y : Byte) : t.memRead y = program.getD y.toNat (s.memRead y) := by
  obtain ⟨-, -, rfl⟩ := hostLoad_inv h
  have hy : y.toNat ≤ topAddress := Nat.le_of_lt_succ y.isLt
  rw [State.memRead, Memory.read, Memory.readNat_putBytes]
  by_cases hl : y.toNat < program.length
  · rw [if_pos (by omega), Nat.sub_zero, List.getD_eq_getElem _ _ hl, List.getD_eq_getElem _ _ hl]
  · rw [if_neg (by omega), List.getD_eq_default _ _ (by omega)]
    rfl

/-- Settles O22: MemWrite, `write` and `load` each by what a read gives after it. -/
theorem readReturnsLatestWrite : Obligations.ReadReturnsLatestWrite := by
  refine ⟨fun s x v y => ⟨State.memRead_memWrite s x v y, rfl, rfl, rfl, rfl, rfl⟩,
    fun s t address value y h => ?_, fun _ _ _ y h => hostLoad_memRead h y, fun _ => rfl⟩
  obtain ⟨-, -, -, rfl⟩ := hostWrite_inv h
  exact s.mem.readNat_writeNat address y.toNat _

end Sys2Proof.Machine

/-! SUPPORT. Runs of two instructions (43_stack.md R103, 44_call_return.md R107, 41_load_print.md
R86) and of an instruction just stored (20_memory.md R41). -/

namespace Sys2Proof.Machine

theorem ofNat_toNat_add (x : Byte) (n : Nat) :
    BitVec.ofNat 8 (x.toNat + n) = x + BitVec.ofNat 8 n := by
  rw [BitVec.ofNat_add, BitVec.ofNat_toNat, BitVec.setWidth_eq]

/-! ### PUSH, then POP -/

/-- The step at a two-byte instruction with one register operand. -/
theorem step_f1r {s : State} {m : Mnemonic} (hr : s.status = .running)
    (h : s.memRead s.pc = Config.opcodeMap m) (hm : m.format = .f1r) (hp : s.pc.toNat ≤ 254) :
    step s = exec (assemble m (s.memRead (s.pc + 1)) 0) s := by
  have h1 : m.format.operandBytes = 1 := by rw [hm]; rfl
  rw [step_of_lookup hr (lookupOpcode_eq_some.2 h) (by omega)]
  cases m with
  | prn | push | pop | call | jmp | jeq | jne => rfl
  | hlt | ldi | add | mul | cmp | ret => cases hm

/-- PUSH of another register than R6, field by field. -/
theorem exec_push_fields {s : State} {a : Byte} {r : Reg} (ha : Reg.ofIndex a = some r)
    (hr : r ≠ .sp) (hp : s.pc.toNat ≤ 253) :
    ∃ t, exec (.push a) s = .next t ∧
      (∀ q, t.reg q = if q = .sp then s.reg .sp - 1 else s.reg q) ∧ t.pc = s.pc + 2 ∧
      t.fl = s.fl ∧ t.status = s.status ∧ t.output = s.output ∧
      ∀ x, t.memRead x = if x = s.reg .sp - 1 then s.reg r else s.memRead x := by
  refine ⟨_, exec_push_ok ha hp, fun q => by simp, ofNat_toNat_add s.pc 2, rfl, rfl, rfl,
    fun x => ?_⟩
  rw [if_neg hr]
  simp

/-- POP of another register than R6, field by field. -/
theorem exec_pop_fields {s : State} {a : Byte} {r : Reg} (ha : Reg.ofIndex a = some r)
    (hr : r ≠ .sp) (hp : s.pc.toNat ≤ 253) :
    ∃ t, exec (.pop a) s = .next t ∧
      (∀ q, t.reg q =
        if q = .sp then s.reg .sp + 1 else if q = r then s.memRead (s.reg .sp) else s.reg q) ∧
      t.pc = s.pc + 2 ∧ t.fl = s.fl ∧ t.status = s.status ∧ t.output = s.output ∧
      ∀ x, t.memRead x = s.memRead x := by
  refine ⟨_, exec_pop_ok ha hp, fun q => ?_, ofNat_toNat_add s.pc 2, rfl, rfl, rfl, fun x => rfl⟩
  rw [if_neg hr]
  simp

/-- Settles O46: the step at PUSH, then the step at POP, whose bytes the store missed and whose load
reads the byte stored. -/
theorem pushThenPopRestoresRegisters : Obligations.PushThenPopRestoresRegisters := by
  intro s a r hrun ha hr hp h0 h1 h2 h3 hne2 hne3
  obtain ⟨t, ht, htreg, htpc, htfl, htst, htout, htmem⟩ :=
    exec_push_fields (s := s) ha hr (by omega)
  have hpc : (s.pc + 2).toNat = s.pc.toNat + 2 := by bv_omega
  have htsp : t.reg .sp = s.reg .sp - 1 := by rw [htreg, if_pos rfl]
  have htop : t.memRead t.pc = 0x46 := by rw [htpc, htmem, if_neg hne2.symm, h2]
  have htarg : t.memRead (t.pc + 1) = a := by
    have e : s.pc + 2 + 1 = s.pc + 3 := BitVec.add_assoc s.pc 2 1
    rw [htpc, e, htmem, if_neg hne3.symm, h3]
  obtain ⟨u, hu, hureg, hupc, hufl, hust, huout, humem⟩ :=
    exec_pop_fields (s := t) ha hr (by rw [htpc]; omega)
  refine ⟨t, u, ?_, ?_, fun q => ?_, ?_, hufl.trans htfl, hust.trans (htst.trans hrun),
    huout.trans htout, fun x => (humem x).trans (htmem x)⟩
  · rw [step_f1r (m := .push) hrun h0 rfl (by omega), h1]
    exact ht
  · rw [step_f1r (m := .pop) (htst.trans hrun) htop rfl (by rw [htpc]; omega), htarg]
    exact hu
  · rw [hureg, htsp, BitVec.sub_add_cancel, htmem, if_pos rfl]
    split_ifs with hsp hqr
    · rw [hsp]
    · rw [hqr]
    · rw [htreg, if_neg hsp]
  · rw [hupc, htpc]
    exact BitVec.add_assoc s.pc 2 2

/-! ### CALL, then RET -/

/-- Settles O47: RET reads the address CALL stored, at the pointer CALL left. -/
theorem retReturnsAfterTheCall : Obligations.RetReturnsAfterTheCall := by
  intro s t u a r ha hp h hsp hm
  obtain ⟨t', ht', -, hs, hc⟩ := exec_call_stack ha hp
  obtain rfl := next_inj (ht'.symm.trans h)
  refine ⟨_, exec_ret_ok u, ?_, ?_⟩
  · exact hm.trans ((hs ▸ hc).trans (ofNat_toNat_add s.pc 2))
  · rw [State.reg_setPc, State.reg_setReg, if_pos rfl, hsp, hs, BitVec.sub_add_cancel]

/-! ### LDI, then PRN -/

theorem sinkText_append_byte (log : List Byte) (v : Byte) :
    sinkText (log ++ [v]) = sinkText log ++ decimalText v ++ [Char.ofNat 10] := by
  simp [sinkText, Config.lineEnd]

/-- Settles O48: PRN appends the register that LDI loaded. -/
theorem loadThenPrintShowsTheDecimalString : Obligations.LoadThenPrintShowsTheDecimalString := by
  intro a v s ha hp
  obtain ⟨r, hr⟩ := Reg.exists_ofIndex ha
  have hpc : (BitVec.ofNat 8 (s.pc.toNat + 3)).toNat ≤ 253 := by
    rw [BitVec.toNat_ofNat, Nat.mod_eq_of_lt (by omega)]
    omega
  have hv : ((s.setReg r v).setPc (BitVec.ofNat 8 (s.pc.toNat + 3))).reg r = v := by simp
  refine ⟨_, _, exec_ldi_ok v hr (by omega), exec_prn_ok hr hpc, ?_, ?_⟩
  · exact congrArg (s.output ++ [·]) hv
  · rw [← sinkText_append_byte]
    exact congrArg (fun y => sinkText (s.output ++ [y])) hv

theorem toNat_digitChar {d : Nat} (h : d < 10) : (digitChar d).toNat = 48 + d := by
  revert d
  decide

/-- Settles O49: by the number of digits, each the character of a digit of the value. -/
theorem decimalTextIsTheUnsignedValue : Obligations.DecimalTextIsTheUnsignedValue := by
  intro v
  have hv := v.isLt
  unfold decimalText
  split_ifs with h1 h2
  · have e := toNat_digitChar h1
    simp only [List.mem_singleton, forall_eq, List.foldl_cons, List.foldl_nil,
      List.length_singleton, e, and_true]
    omega
  · have e1 := toNat_digitChar (d := v.toNat / 10) (by omega)
    have e2 := toNat_digitChar (d := v.toNat % 10) (by omega)
    simp only [List.forall_mem_cons, List.mem_singleton, forall_eq, List.foldl_cons,
      List.foldl_nil, List.length_cons, List.length_nil, e1, e2, and_true]
    omega
  · have e1 := toNat_digitChar (d := v.toNat / 100) (by omega)
    have e2 := toNat_digitChar (d := v.toNat / 10 % 10) (by omega)
    have e3 := toNat_digitChar (d := v.toNat % 10) (by omega)
    simp only [List.forall_mem_cons, List.mem_singleton, forall_eq, List.foldl_cons,
      List.foldl_nil, List.length_cons, List.length_nil, e1, e2, e3, and_true]
    omega

/-! ### A stored byte as an instruction -/

/-- The operand bytes a fetch reads, in terms of reads. -/
theorem State.getElem?_fetchOperands {s : State} {x : Byte} {k : Nat} (hk : k < 2)
    (h : s.pc.toNat + (k + 1) = x.toNat) : s.fetchOperands[k]? = some (s.memRead x) := by
  have hx : x.toNat ≤ topAddress := Nat.le_of_lt_succ x.isLt
  have e : s.pc.toNat + 1 + k = x.toNat := by omega
  rw [State.fetchOperands, Memory.getElem?_bytesFrom, e, if_pos ⟨hk, hx⟩]
  rfl

/-- PUSH and CALL leave the byte they store under the pointer they leave. -/
theorem memRead_sp_after_store {a b : Byte} {r : Reg} {i : Instr} {s t : State}
    (ha : Reg.ofIndex a = some r) (hp : s.pc.toNat ≤ 253) (h : exec i s = .next t)
    (hi : (i = .push a ∧ b = (if r = .sp then s.reg .sp - 1 else s.reg r)) ∨
      (i = .call a ∧ b = BitVec.ofNat 8 (s.pc.toNat + 2))) : t.memRead (t.reg .sp) = b := by
  rcases hi with ⟨rfl, rfl⟩ | ⟨rfl, rfl⟩
  · obtain rfl := next_inj ((exec_push_ok ha hp).symm.trans h)
    simp
  · obtain rfl := next_inj ((exec_call_ok ha hp).symm.trans h)
    simp

/-- Settles O56: the stored byte is read at its address by whatever part of a fetch reads there, and
the step is the one of the opcode it is. -/
theorem storedByteIsWhatIsFetched : Obligations.StoredByteIsWhatIsFetched := by
  intro a b r i s t u ha hp h hi hmem
  have hb : u.memRead (t.reg .sp) = b :=
    (State.memRead_eq_of_mem_eq hmem _).trans (memRead_sp_after_store ha hp h hi)
  refine ⟨fun hpc => ?_, fun h1 => ?_, fun h2 => ?_, fun hr hpc => ⟨fun hn => ?_, fun h01 => ?_,
    fun m hm hm2 => ?_⟩⟩
  · rw [State.fetchOpcode, hpc, hb]
  · rw [State.getElem?_fetchOperands (by omega) h1, hb]
  · rw [State.getElem?_fetchOperands (by omega) h2, hb]
  all_goals rw [← hpc] at hb
  · rw [← hb] at hn ⊢
    exact step_of_unknown hr hn
  · have hm : lookupOpcode (u.memRead u.pc) = some .hlt := by
      rw [hb, h01]
      rfl
    rw [step_of_lookup hr hm (Nat.le_of_lt_succ u.pc.isLt)]
    rfl
  · exact step_of_lookup hr (hb.symm ▸ hm) hm2

end Sys2Proof.Machine

/-! SUPPORT. Laws of reset, of the host's operations (80_interfaces.md R165 to R169) and of a run
(40_engine_hlt.md R79, R81). -/

namespace Sys2Proof.Machine

/-! ### When the host may act (R165) -/

theorem State.hostMayChange_ok {s : State} (h : s.status = .ready) : s.hostMayChange = .ok () := by
  rw [State.hostMayChange, h]

theorem State.hostMayRead_ok {s : State} (h : s.status ≠ .running) : s.hostMayRead = .ok () := by
  unfold State.hostMayRead
  cases hs : s.status with
  | running => exact absurd hs h
  | ready => rfl
  | halted => rfl
  | faulted r => rfl

/-- A program that fits is installed. -/
theorem hostLoad_ok {program : List Byte} {s : State} (hr : s.status = .ready)
    (hl : program.length ≤ 256) :
    hostLoad program s = .ok { s with mem := s.mem.putBytes 0 program } := by
  rw [hostLoad, State.hostMayChange_ok hr]
  exact if_neg (Nat.not_lt.2 hl)

theorem hostLoad_too_long {program : List Byte} {s : State} (hr : s.status = .ready)
    (hl : 256 < program.length) : hostLoad program s = .error .addressOutOfRange := by
  rw [hostLoad, State.hostMayChange_ok hr]
  exact if_pos hl

theorem hostRead_ok {address : Nat} {s : State} (h : s.status ≠ .running) (ha : address ≤ 255) :
    hostRead address s = .ok (s.mem.readNat address) := by
  rw [hostRead, State.hostMayRead_ok h]
  exact if_neg (Nat.not_lt.2 ha)

theorem hostRead_out_of_range {address : Nat} {s : State} (h : s.status ≠ .running)
    (ha : 255 < address) : hostRead address s = .error .addressOutOfRange := by
  rw [hostRead, State.hostMayRead_ok h]
  exact if_pos ha

theorem hostObserve_ok {s : State} (h : s.status ≠ .running) : hostObserve s = .ok s := by
  rw [hostObserve, State.hostMayRead_ok h]
  rfl

/-- When the status does not allow a change, `load`, `write` and `run` answer its error. -/
theorem host_changes_error {s : State} {e : HostError} (h : s.hostMayChange = .error e)
    (program : List Byte) (address value : Nat) :
    hostLoad program s = .error e ∧ hostWrite address value s = .error e ∧
      hostRun s = .error e := by
  refine ⟨?_, ?_, ?_⟩
  · rw [hostLoad, h]
    rfl
  · rw [hostWrite, h]
    rfl
  · rw [hostRun, h]
    rfl

/-- When the status does not allow reading, `read` and observing answer its error. -/
theorem host_reads_error {s : State} {e : HostError} (h : s.hostMayRead = .error e)
    (address : Nat) : hostRead address s = .error e ∧ hostObserve s = .error e := by
  constructor
  · rw [hostRead, h]
    rfl
  · rw [hostObserve, h]
    rfl

/-- An error of `read` while reading is allowed is about the address. -/
theorem hostRead_ne_error {address : Nat} {s : State} {e : HostError} (h : s.status ≠ .running)
    (he : e ≠ .addressOutOfRange) : hostRead address s ≠ .error e := by
  intro hc
  by_cases ha : address ≤ 255
  · cases (hostRead_ok h ha).symm.trans hc
  · cases (hostRead_out_of_range h (Nat.lt_of_not_le ha)).symm.trans hc
    exact he rfl

/-- An error of `load` in Ready is about the length. -/
theorem hostLoad_ne_error {program : List Byte} {s : State} {e : HostError}
    (hr : s.status = .ready) (he : e ≠ .addressOutOfRange) : hostLoad program s ≠ .error e := by
  intro hc
  by_cases hl : program.length ≤ 256
  · cases (hostLoad_ok hr hl).symm.trans hc
  · cases (hostLoad_too_long hr (Nat.lt_of_not_le hl)).symm.trans hc
    exact he rfl

/-- An error of `write` in Ready is about the address or the value. -/
theorem hostWrite_ne_error {address value : Nat} {s : State} {e : HostError}
    (hr : s.status = .ready) (he : e ≠ .addressOutOfRange) (he' : e ≠ .valueOutOfRange) :
    hostWrite address value s ≠ .error e := by
  intro hc
  rw [hostWrite, State.hostMayChange_ok hr] at hc
  change (if address > topAddress then _ else if value > 255 then _ else _) = _ at hc
  split_ifs at hc <;> cases hc
  · exact he rfl
  · exact he' rfl

/-- Settles O50. -/
theorem resetLeavesTheListedValues : Obligations.ResetLeavesTheListedValues :=
  fun _ => ⟨rfl, rfl, fun _ => rfl, fun q => by cases q <;> rfl, rfl, rfl⟩

/-- Settles O51: the cells by what a load leaves, the rest because it changes memory alone. -/
theorem loadInstallsTheProgram : Obligations.LoadInstallsTheProgram := by
  refine fun program s hr => ⟨fun hl => ?_, hostLoad_too_long hr⟩
  have h := hostLoad_ok hr hl
  refine ⟨_, h, fun x hx => ?_, fun x hx => ?_, rfl, rfl, rfl, rfl, rfl⟩
  · rw [hostLoad_memRead h, List.getD_eq_getElem _ _ hx]
  · rw [hostLoad_memRead h, List.getD_eq_default _ _ hx]

/-- Settles O53. -/
theorem readReturnsTheCell : Obligations.ReadReturnsTheCell := by
  refine fun address s h => ⟨fun ha => ?_, hostRead_out_of_range h, hostObserve_ok h⟩
  rw [hostRead_ok h ha, State.memRead, Memory.read, BitVec.toNat_ofNat,
    Nat.mod_eq_of_lt (Nat.lt_succ_of_le ha)]

/-- Settles O54: each row of the table by what the status allows. -/
theorem hostActsOnlyWhenAllowed : Obligations.HostActsOnlyWhenAllowed := by
  intro s program address value
  refine ⟨fun hs => ?_, fun hs => ?_, fun hs => ?_, rfl⟩
  · have hc : s.hostMayChange = .error .notPossible := by rw [State.hostMayChange, hs]
    have hr : s.hostMayRead = .error .notPossible := by rw [State.hostMayRead, hs]
    obtain ⟨h1, h2, h3⟩ := host_changes_error hc program address value
    obtain ⟨h4, h5⟩ := host_reads_error hr address
    exact ⟨h1, h2, h3, h4, h5⟩
  · have hc : s.hostMayChange = .error .refused := by
      rcases hs with hs | ⟨r, hs⟩ <;> rw [State.hostMayChange, hs]
    have hn : s.status ≠ .running := by rcases hs with hs | ⟨r, hs⟩ <;> simp [hs]
    obtain ⟨h1, h2, h3⟩ := host_changes_error hc program address value
    exact ⟨h1, h2, h3, hostRead_ne_error hn nofun, hostRead_ne_error hn nofun, hostObserve_ok hn⟩
  · have hn : s.status ≠ .running := by simp [hs]
    refine ⟨hostLoad_ne_error hs nofun, hostLoad_ne_error hs nofun,
      hostWrite_ne_error hs nofun nofun, hostWrite_ne_error hs nofun nofun,
      hostRead_ne_error hn nofun, hostRead_ne_error hn nofun, ?_, hostObserve_ok hn⟩
    rw [hostRun, State.hostMayChange_ok hs]
    rfl

/-! ### A run (R79, R81) -/

theorem runFor_of_not_running {s : State} (h : s.status ≠ .running) (n : Nat) : runFor n s = s := by
  cases n with
  | zero => rfl
  | succ n =>
    rw [runFor]
    cases hs : s.status with
    | running => exact absurd hs h
    | ready => rfl
    | halted => rfl
    | faulted r => rfl

theorem runFor_succ_of_running {s t : State} (hr : s.status = .running) (h : step s = .next t)
    (n : Nat) : runFor (n + 1) s = runFor n t := by
  rw [runFor, hr, h]

/-- A run may be stopped and resumed between steps. -/
theorem runFor_add (n k : Nat) (s : State) : runFor (n + k) s = runFor k (runFor n s) := by
  induction n generalizing s with
  | zero => rw [Nat.zero_add, runFor]
  | succ n ih =>
    by_cases hr : s.status = .running
    · obtain ⟨t, ht, -⟩ := runningStepAnswersNextState s hr
      rw [Nat.add_right_comm, runFor_succ_of_running hr ht, runFor_succ_of_running hr ht, ih]
    · rw [runFor_of_not_running hr, runFor_of_not_running hr, runFor_of_not_running hr]

/-- A run of a Running engine is Running, Halted or Faulted. -/
theorem runFor_status {s : State} (hr : s.status = .running) (n : Nat) :
    (runFor n s).status = .running ∨
      ((runFor n s).status = .halted ∨ ∃ r, (runFor n s).status = .faulted r) := by
  induction n generalizing s with
  | zero => exact .inl hr
  | succ n ih =>
    obtain ⟨t, ht, hs⟩ := runningStepAnswersNextState s hr
    rw [runFor_succ_of_running hr ht]
    rcases hs with hs | hs
    · exact ih hs
    · have hn : t.status ≠ .running := by rcases hs with hs | ⟨r, hs⟩ <;> simp [hs]
      rw [runFor_of_not_running hn]
      exact .inr hs

/-- Settles O55: a run by its steps; not Running any more, it stays where it is. -/
theorem runStopsOnlyWhenHaltedOrFaulted : Obligations.RunStopsOnlyWhenHaltedOrFaulted := by
  refine fun n k s => ⟨rfl, fun hr => ?_, fun t hr ht => runFor_succ_of_running hr ht n,
    fun hn => runFor_of_not_running hn n, runFor_add n k s, fun hr => ?_⟩
  · obtain ⟨t, ht, -⟩ := runningStepAnswersNextState s hr
    exact ⟨t, ht, runFor_succ_of_running hr ht n⟩
  · refine (runFor_status hr n).imp_right fun hs => ⟨hs, ?_⟩
    have hn : (runFor n s).status ≠ .running := by rcases hs with hs | ⟨r, hs⟩ <;> simp [hs]
    rw [runFor_add, runFor_of_not_running hn]

end Sys2Proof.Machine
